-- ==== Sys2Proof/Word.lean ====
section
/-! DEFINITION. The data types of the CRC frame codec: bits, bit sequences, octets, command words. -/

namespace Sys2Proof

/-- A bit sequence (00_scope.md R7): the leftmost bit, index 0, is the head. -/
abbrev BitSeq := List Bool

/-- An octet (00_scope.md R8): a value in 0..255. A data unit is a list of octets. -/
abbrev Octet := BitVec 8

/-- The 8-bit command word `CMD` (30_encoding.md R61). -/
abbrev CmdWord := BitVec 8

/-- A length parameter: `none` is unbounded, `some m` admits every length up to `m` (00_scope.md R5). -/
abbrev Limit := Option Nat

end Sys2Proof
end

