-- ==== Sys2Proof/Config.lean ====
section
/-! DEFINITION. The parameters of a build (00_scope.md R5, R6): none is state, no command reads or writes one.
The machine's operations take a `Config`, so that their laws hold of every build; `exec` and `step` run
`Config.hardware`, whose three OPEN parameters are constants without a body. -/

namespace Sys2Proof

/-- The parameters of 00_scope.md R5. -/
structure Config where
  /-- `W`, the width in bits of the sequence field. -/
  w : Nat
  /-- `POLY_RESET`, the polynomial held after reset. -/
  polyReset : BitSeq
  /-- `POLY_MAX_BITS`. -/
  polyMaxBits : Limit
  /-- `FRAME_MAX_BITS`. -/
  frameMaxBits : Limit
  /-- `DATA_MAX_OCTETS`. -/
  dataMaxOctets : Limit
deriving DecidableEq, Repr

/-- How many bits POLY_MAX_BITS goes beyond its least value 4; `none`: POLY_MAX_BITS is unbounded.
OPEN (decision D8): no body, so a claim holds for every value (log entry 4). -/
opaque Config.polyMaxSlack : Option Nat

/-- How many bits FRAME_MAX_BITS goes beyond its least value `W + POLY_MAX_BITS - 1`; `none`: unbounded.
OPEN (decision D9), no body (log entry 4). -/
opaque Config.frameMaxSlack : Option Nat

/-- DATA_MAX_OCTETS. OPEN (decision D9), no body (log entry 4). -/
opaque Config.dataMaxFree : Limit

/-- POLY_MAX_BITS from its excess over 4 (R5: a natural `>= 4`, or unbounded). -/
def Config.polyLimit (slack : Option Nat) : Limit := slack.map (· + 4)

/-- FRAME_MAX_BITS from its excess over `W + POLY_MAX_BITS - 1` (R5). With POLY_MAX_BITS unbounded no finite
FRAME_MAX_BITS meets that bound, so it is unbounded too (DEDUCED, log entry 4). -/
def Config.frameLimit (w : Nat) : Option Nat → Option Nat → Limit
  | some polySlack, some frameSlack => some (w + (polySlack + 4) - 1 + frameSlack)
  | _, _ => none

/-- This hardware: `W = 2` and `POLY_RESET = b"1011"` (R5; log entry 5), the rest OPEN (log entry 4). -/
def Config.hardware : Config where
  w := 2
  polyReset := [true, false, true, true]
  polyMaxBits := Config.polyLimit Config.polyMaxSlack
  frameMaxBits := Config.frameLimit 2 Config.polyMaxSlack Config.frameMaxSlack
  dataMaxOctets := Config.dataMaxFree

end Sys2Proof
end

