-- ==== Sys2Proof/Machine/Operands.lean ====
section
/-! DEFINITION. Operand forms: length parameters, slices, `0^k`, `bin_k`, `val`, and the assembly and extraction
of the sequence field and the payload (00_scope.md R7, R8; 30_encoding.md R69, R70). -/

namespace Sys2Proof.Machine

/-- Length `len` exceeds the parameter (00_scope.md R5); an unbounded parameter is never exceeded. -/
def exceeds (len : Nat) : Limit → Bool
  | none => false
  | some m => decide (m < len)

/-- The half-open slice `s[a..b)` (00_scope.md R7). -/
def slice (s : BitSeq) (a b : Nat) : BitSeq := (s.drop a).take (b - a)

/-- `0^k`, the sequence of `k` zero bits (00_scope.md R7). -/
def zeros (k : Nat) : BitSeq := List.replicate k false

/-- `bin_k(v)`: `v mod 2^k` in `k` bits, most significant bit first (00_scope.md R8; decisions D4, D5). -/
def bin : (k v : Nat) → BitSeq
  | 0, _ => []
  | k + 1, v => v.testBit k :: bin k v

/-- `val(s)`, with index 0 the most significant bit (00_scope.md R8). -/
def val : BitSeq → Nat
  | [] => 0
  | b :: s => b.toNat * 2 ^ s.length + val s

/-- `SEQF = bin_W(S)` (30_encoding.md R69). -/
def seqField (w seq : Nat) : BitSeq := bin w seq

/-- `PAYLOAD = bin_8(D[0]) ++ bin_8(D[1]) ++ ...` (30_encoding.md R70). -/
def payload (data : List Octet) : BitSeq := data.flatMap fun o => bin 8 o.toNat

/-- `[ val(F[from + 8j .. from + 8j + 8)) for j in 0 .. count - 1 ]` (30_encoding.md R70, 42_framer.md R112). -/
def octetsFrom (f : BitSeq) (start count : Nat) : List Octet :=
  (List.range count).map fun j => BitVec.ofNat 8 (val (slice f (start + 8 * j) (start + 8 * j + 8)))

/-- `a xor b`, bit by bit, on sequences of equal length (00_scope.md R7). -/
def xorBits (a b : BitSeq) : BitSeq := List.zipWith xor a b

/-- The sequence with its bit `i` inverted. -/
def flipBit (i : Nat) (f : BitSeq) : BitSeq := f.modify i not

end Sys2Proof.Machine
end

