-- ==== Sys2Proof/Machine/Division.lean ====
section
/-! DEFINITION. The one arithmetic primitive: modulo-2 long division (41_checksum_codec.md R90), as its loops. -/

namespace Sys2Proof.Machine

/-- The inner loop of R90: `for j in 0 .. n - 1: B[i + j] <- B[i + j] xor K[j]`. -/
def xorInto : (k : BitSeq) → (i : Nat) → (buf : BitSeq) → BitSeq
  | [], _, buf => buf
  | kj :: k, i, buf => xorInto k (i + 1) (buf.modify i fun b => xor b kj)

/-- One position of the scan: `if B[i] == 1` then the inner loop. The test reads the buffer as earlier positions
left it. -/
def divideAt (k : BitSeq) (i : Nat) (buf : BitSeq) : BitSeq :=
  if buf[i]? = some true then xorInto k i buf else buf

/-- The outer loop of R90 over `count` positions from `i` on, left to right. -/
def divideLoop (k : BitSeq) : (count i : Nat) → (buf : BitSeq) → BitSeq
  | 0, _, buf => buf
  | count + 1, i, buf => divideLoop k count (i + 1) (divideAt k i buf)

/-- `Divide(B, K)` (R90): `L - n + 1` positions, then the last `n - 1` bits. -/
def divide (buf k : BitSeq) : BitSeq :=
  let n := k.length
  let len := buf.length
  (divideLoop k (len - n + 1) 0 buf).drop (len - (n - 1))

/-- The checksum of a message: `Divide(M ++ 0^(n-1), POLY)` (41_checksum_codec.md R93, 42_framer.md R110). -/
def checksum (message k : BitSeq) : BitSeq := divide (message ++ zeros (k.length - 1)) k

end Sys2Proof.Machine
end

