-- ==== Sys2Proof/Syntax.lean ====
section
/-! DEFINITION. Commands as syntax: the request record (30_encoding.md R60) and the five instructions, each with the
operands it uses. -/

namespace Sys2Proof

/-- A request (30_encoding.md R60): the command word and the three operands, each carried with its length.
The defaults are R73's: an omitted ignored operand is empty. -/
structure Request where
  cmd : CmdWord
  a : BitSeq := []
  s : Nat := 0
  d : List Octet := []
deriving DecidableEq, Repr

/-- The five commands (00_scope.md R12), each with the operands of the request it uses (30_encoding.md R60). -/
inductive Instr where
  /-- CFG_POLY: `a` is the new polynomial (40_configuration.md R80). -/
  | cfgPoly (a : BitSeq)
  /-- CRC_GEN: `a` is the message to protect (41_checksum_codec.md R93). -/
  | crcGen (a : BitSeq)
  /-- CRC_CHK: `a` is the received codeword (41_checksum_codec.md R94). -/
  | crcChk (a : BitSeq)
  /-- FRM_ENC: `seq` is the sequence number `S`, `data` the data unit `D` (42_framer.md R110). -/
  | frmEnc (seq : Nat) (data : List Octet)
  /-- FRM_DEC: `a` is the received frame (42_framer.md R112). -/
  | frmDec (a : BitSeq)
deriving DecidableEq, Repr

end Sys2Proof
end

