-- ==== Sys2Proof/Machine/State.lean ====
section
/-! DEFINITION. The state of one codec (10_state.md R20), its responses (30_encoding.md R64) and its event records
(60_exceptions.md R150), as plain data. -/

namespace Sys2Proof.Machine

/-- `STATUS` (30_encoding.md R66, 60_exceptions.md R141). -/
inductive Status where
  | ok
  | invalidConfiguration
  | illegalCommand
  | lengthLimit
deriving DecidableEq, Repr

/-- `OUTCOME` (30_encoding.md R66, 60_exceptions.md R142). -/
inductive DecOutcome where
  | none
  | decOk
  | corrupted
  | malformed
deriving DecidableEq, Repr

/-- A response (30_encoding.md R64). The defaults are those of R65. -/
structure Response where
  status : Status := .ok
  bits : BitSeq := []
  ok : Bool := false
  outcome : DecOutcome := .none
  seq : Nat := 0
  data : List Octet := []
deriving DecidableEq, Repr

/-- A record of the event output (60_exceptions.md R150). -/
inductive Event where
  /-- `FRAMED`, by FRM_ENC on completion. -/
  | framed (payload checksum frame : BitSeq)
  /-- `CRC_FAIL`, by FRM_DEC with outcome CORRUPTED. -/
  | crcFail (frame : BitSeq)
  /-- `MALFORMED_FRAME`, by FRM_DEC with outcome MALFORMED. -/
  | malformedFrame (frame : BitSeq)
deriving DecidableEq, Repr

/-- What the host asks of the codec between commands (20_memory.md R48; 70_reset_and_hazards.md R160, R161, R168). -/
inductive HostInput where
  /-- A command is issued. -/
  | command (r : Request)
  /-- The host resets the codec: an action, not a command. -/
  | reset
deriving DecidableEq, Repr

/-- The state. `poly` is the whole architectural state (10_state.md R20); the other three fields are the codec's
meeting with its host: what is asked and not yet begun, and what has been answered (log entries 1 and 2). -/
structure State where
  /-- The polynomial register `POLY` (10_state.md R21). -/
  poly : BitSeq
  /-- What the host has asked for and the codec has not begun, oldest first. -/
  inputs : List HostInput
  /-- The responses returned, oldest first (70_reset_and_hazards.md R168). -/
  responses : List Response
  /-- The event output, oldest first; append-only (10_state.md R27). -/
  events : List Event
deriving DecidableEq, Repr

/-- The machine never stops with a fault: an error is the status of a response, and no error is fatal (60_exceptions.md
R140, R145; log entry 6). No constructor, so none is raised by anyone. -/
inductive Fault where
deriving DecidableEq, Repr

/-- Why a step has no meaning. -/
inductive Refusal where
  /-- Raised by `exec`'s arm of an instruction that has no meaning yet. Safe: the model stops where the hardware goes on.
  No arm raises it in this model. -/
  | notModelled (mnemonic : String)
deriving DecidableEq, Repr

/-- The first state of every run (70_reset_and_hazards.md R161): `POLY = POLY_RESET` (10_state.md R29), nothing asked and
nothing answered yet (log entries 1 and 2). -/
def State.reset : State where
  poly := Config.hardware.polyReset
  inputs := []
  responses := []
  events := []

end Sys2Proof.Machine
end

