-- ==== Sys2Proof/Machine/Flags.lean ====
section
/-! DEFINITION. The codec has no flags that persist (10_state.md R25). What a command reports in their place is in its
response: the status and outcome codes (30_encoding.md R66) and the zero test of a remainder (41_checksum_codec.md R94). -/

namespace Sys2Proof.Machine

/-- The 2-bit code of a status (30_encoding.md R66). -/
def Status.code : Status → BitVec 2
  | .ok => 0
  | .invalidConfiguration => 1
  | .illegalCommand => 2
  | .lengthLimit => 3

/-- The 2-bit code of an outcome (30_encoding.md R66). -/
def DecOutcome.code : DecOutcome → BitVec 2
  | .none => 0
  | .decOk => 1
  | .corrupted => 2
  | .malformed => 3

/-- `Divide(F, K) == 0^(n-1)`: the test of CRC_CHK (41_checksum_codec.md R94) and of FRM_DEC's step 2
(42_framer.md R112). -/
def verifies (f k : BitSeq) : Bool := divide f k == zeros (k.length - 1)

end Sys2Proof.Machine
end

