-- ==== Sys2Proof/Machine/Ops.lean ====
section
/-! DEFINITION. The named operations over the state: the primitives of the spec's pseudocode (00_scope.md R9). -/

namespace Sys2Proof.Machine

/-- `POLY <- v` (00_scope.md R9). -/
def writePoly (v : BitSeq) (s : State) : State := { s with poly := v }

/-- `respond(...)` (00_scope.md R9): the command ends with this response. -/
def respond (r : Response) (s : State) : State := { s with responses := s.responses ++ [r] }

/-- `emit Event(...)` (00_scope.md R9): one record is appended to the event output (10_state.md R27). -/
def emit (e : Event) (s : State) : State := { s with events := s.events ++ [e] }

/-- `raise Status(code)`, the whole of the error mechanism (60_exceptions.md R140): the response carries the code, every
other field its default (30_encoding.md R65); no state is written and no record emitted. -/
def raise (code : Status) (s : State) : State := respond { status := code } s

/-- The host's reset action (70_reset_and_hazards.md R160): `POLY <- POLY_RESET` and nothing else. -/
def resetAction (c : Config) (s : State) : State := writePoly c.polyReset s

end Sys2Proof.Machine
end

