-- ==== Sys2Proof/Machine/Checksum.lean ====
section
/-! DEFINITION. The Checksum Codec commands (41_checksum_codec.md). -/

namespace Sys2Proof.Machine

/-- CRC_GEN in a build `c` (R93). -/
def crcGen (c : Config) (m : BitSeq) (s : State) : State :=
  let n := s.poly.length
  if exceeds (m.length + (n - 1)) c.frameMaxBits then raise .lengthLimit s
  else if m.length = 0 then raise .invalidConfiguration s
  else respond { bits := checksum m s.poly } s

/-- CRC_CHK in a build `c` (R94). -/
def crcChk (c : Config) (f : BitSeq) (s : State) : State :=
  let n := s.poly.length
  if exceeds f.length c.frameMaxBits then raise .lengthLimit s
  else if f.length < n then raise .invalidConfiguration s
  else respond { ok := verifies f s.poly } s

/-- CRC_GEN (R93). -/
def execCrcGen (a : BitSeq) (s : State) : Host.Outcome State Fault Refusal :=
  .next (crcGen Config.hardware a s)

/-- CRC_CHK (R94). -/
def execCrcChk (a : BitSeq) (s : State) : Host.Outcome State Fault Refusal :=
  .next (crcChk Config.hardware a s)

end Sys2Proof.Machine
end

