-- ==== Sys2Proof/Machine/Configuration.lean ====
section
/-! DEFINITION. The configuration command (40_configuration.md). -/

namespace Sys2Proof.Machine

/-- CFG_POLY in a build `c` (R80). -/
def cfgPoly (c : Config) (k : BitSeq) (s : State) : State :=
  if exceeds k.length c.polyMaxBits then raise .lengthLimit s
  else if k.length ≤ 1 then raise .invalidConfiguration s
  else respond {} (writePoly k s)

/-- CFG_POLY (R80). -/
def execCfgPoly (a : BitSeq) (s : State) : Host.Outcome State Fault Refusal :=
  .next (cfgPoly Config.hardware a s)

end Sys2Proof.Machine
end

