-- ==== Sys2Proof/Machine/Framer.lean ====
section
/-! DEFINITION. The Framer commands (42_framer.md). -/

namespace Sys2Proof.Machine

/-- FRM_ENC in a build `c` (R110). -/
def frmEnc (c : Config) (seq : Nat) (data : List Octet) (s : State) : State :=
  let n := s.poly.length
  if exceeds data.length c.dataMaxOctets then raise .lengthLimit s
  else if exceeds (c.w + 8 * data.length + (n - 1)) c.frameMaxBits then raise .lengthLimit s
  else
    let p := payload data
    let m := seqField c.w seq ++ p
    let chk := checksum m s.poly
    let f := m ++ chk
    respond { bits := f } (emit (.framed p chk f) s)

/-- FRM_DEC in a build `c` (R112): the checks in the order the rule numbers them (60_exceptions.md R143). -/
def frmDec (c : Config) (f : BitSeq) (s : State) : State :=
  let n := s.poly.length
  let p := f.length - c.w - (n - 1)
  if exceeds f.length c.frameMaxBits then raise .lengthLimit s
  else if f.length < c.w + (n - 1) then respond { outcome := .malformed } (emit (.malformedFrame f) s)
  else if !verifies f s.poly then respond { outcome := .corrupted } (emit (.crcFail f) s)
  else if p % 8 ≠ 0 then respond { outcome := .malformed } (emit (.malformedFrame f) s)
  else respond { outcome := .decOk, seq := val (slice f 0 c.w), data := octetsFrom f c.w (p / 8) } s

/-- FRM_ENC (R110). -/
def execFrmEnc (seq : Nat) (data : List Octet) (s : State) : Host.Outcome State Fault Refusal :=
  .next (frmEnc Config.hardware seq data s)

/-- FRM_DEC (R112). -/
def execFrmDec (a : BitSeq) (s : State) : Host.Outcome State Fault Refusal :=
  .next (frmDec Config.hardware a s)

end Sys2Proof.Machine
end

