-- ==== Sys2Proof/Machine/Dispatch.lean ====
section
/-! DEFINITION. One arm per constructor of Instr, each one direct call of its meaning. -/

namespace Sys2Proof.Machine

def exec (i : Instr) (s : State) : Host.Outcome State Fault Refusal :=
  match i with
  | .cfgPoly a => Sys2Proof.Machine.execCfgPoly a s
  | .crcGen a => Sys2Proof.Machine.execCrcGen a s
  | .crcChk a => Sys2Proof.Machine.execCrcChk a s
  | .frmEnc seq data => Sys2Proof.Machine.execFrmEnc seq data s
  | .frmDec a => Sys2Proof.Machine.execFrmDec a s

end Sys2Proof.Machine
end

