-- ==== Sys2Proof/Decode.lean ====
section
/-! DEFINITION. The decoder, total on every request (30_encoding.md R75), and the encoder. -/

namespace Sys2Proof

/-- Why a command word is illegal (30_encoding.md R63). -/
inductive DecodeReject where
  /-- `CMD[7:4]` is not `0000`. -/
  | reservedField
  /-- `CMD[7:4]` is `0000` and `CMD[3:0]` is `0x0` or `0x6 .. 0xF`. -/
  | reservedOpcode
deriving DecidableEq, Repr

/-- `OP = CMD[3:0]` (30_encoding.md R61). -/
def opField (cmd : CmdWord) : BitVec 4 := cmd.extractLsb' 0 4

/-- `RSV = CMD[7:4]` (30_encoding.md R61). -/
def rsvField (cmd : CmdWord) : BitVec 4 := cmd.extractLsb' 4 4

/-- The opcode map (30_encoding.md R62): the command word alone selects the command; the operands it uses are then
taken from the request (R60) and the others dropped. -/
def decode (r : Request) : Except DecodeReject Instr :=
  match (rsvField r.cmd).toNat with
  | 0 =>
    match (opField r.cmd).toNat with
    | 1 => .ok (.cfgPoly r.a)
    | 2 => .ok (.crcGen r.a)
    | 3 => .ok (.crcChk r.a)
    | 4 => .ok (.frmEnc r.s r.d)
    | 5 => .ok (.frmDec r.a)
    | _ => .error .reservedOpcode
  | _ => .error .reservedField

/-- The request that spells an instruction (30_encoding.md R62, R73): ignored operands are empty. -/
def encode : Instr → Request
  | .cfgPoly a => { cmd := 0x01, a := a }
  | .crcGen a => { cmd := 0x02, a := a }
  | .crcChk a => { cmd := 0x03, a := a }
  | .frmEnc seq data => { cmd := 0x04, s := seq, d := data }
  | .frmDec a => { cmd := 0x05, a := a }

/-- The request that a row of opcode_table.json stands for: `CMD` is the first eight of the `nbits` bits of `w`, and
every operand, to which the table gives no bits, is empty. -/
def tableRequest (nbits w : Nat) : Request := { cmd := BitVec.ofNat 8 (w % 2 ^ nbits) }

/-- What the decoder reads from a word of opcode_table.json. -/
def decodeTableWord (nbits w : Nat) : Option Instr := (decode (tableRequest nbits w)).toOption

end Sys2Proof
end

