-- ==== Sys2Proof/Machine/Issue.lean ====
section
/-! DEFINITION. How a command reaches the codec, and what an illegal command word gets: the parts of a step that are not
an instruction's meaning. -/

namespace Sys2Proof.Machine

/-- What an illegal command word gets (30_encoding.md R63): `Status(ILLEGAL_COMMAND)`, whichever field is at fault; the
operands are not examined. -/
def illegalCommand (_ : DecodeReject) (s : State) : State := raise .illegalCommand s

/-- The host issues the request of a word of opcode_table.json as the very next thing the codec does; everything asked
earlier comes after it. -/
def issueWord (nbits w : Nat) (s : State) : State :=
  { s with inputs := .command (tableRequest nbits w) :: s.inputs }

end Sys2Proof.Machine
end

