-- ==== Sys2Proof/Machine/Step.lean ====
section
/-! DEFINITION. One step: the oldest thing the host asked for, as one atomic transaction (20_memory.md R47, R48). -/

namespace Sys2Proof.Machine

/-- With nothing asked the codec is idle and keeps its state (60_exceptions.md R151; log entry 3). A reset happens
between commands (70_reset_and_hazards.md R161). A command runs to its response (20_memory.md R47). -/
def step (s : State) : Host.Outcome State Fault Refusal :=
  match s.inputs with
  | [] => .next s
  | .reset :: rest => .next (resetAction Config.hardware { s with inputs := rest })
  | .command r :: rest =>
    match decode r with
    | .error e => .next (illegalCommand e { s with inputs := rest })
    | .ok i => exec i { s with inputs := rest }

/-- The state whose next step runs the instruction of a word of opcode_table.json (log entry 1). -/
def State.withFetchWord (s : State) (nbits w : Nat) : State := issueWord nbits w s

end Sys2Proof.Machine
end

