-- ==== Sys2Proof/WellFormed.lean ====
section
/-! DEFINITION. Well-formed instructions: operands within the ranges of the request table (30_encoding.md R60).
The machine does not ask for it: an operand beyond its range is answered with a status (60_exceptions.md R141). -/

namespace Sys2Proof

/-- `A` has length `0 .. FRAME_MAX_BITS`, `D` has length `0 .. DATA_MAX_OCTETS` (R60). `S` is any natural, and an
octet is in range by its type. -/
def Instr.wellFormed (c : Config) : Instr → Bool
  | .cfgPoly a => !Machine.exceeds a.length c.frameMaxBits
  | .crcGen a => !Machine.exceeds a.length c.frameMaxBits
  | .crcChk a => !Machine.exceeds a.length c.frameMaxBits
  | .frmEnc _ data => !Machine.exceeds data.length c.dataMaxOctets
  | .frmDec a => !Machine.exceeds a.length c.frameMaxBits

end Sys2Proof
end

