-- ==== Sys2Proof/Safety.lean ====
section
/-! DEFINITION. What a legal build, a legal polynomial and a well-formed history are: the terms in which claims about
runs are stated. -/

namespace Sys2Proof.Machine

/-- The parameters meet the conditions of 00_scope.md R5, in the terms of `exceeds`: `W >= 1`; POLY_MAX_BITS is at least 4;
FRAME_MAX_BITS is at least `W + POLY_MAX_BITS - 1`, so it admits the shortest frame of every polynomial that POLY_MAX_BITS
admits; the reset value is legal (10_state.md R22). -/
structure LegalBuild (c : Config) : Prop where
  w_pos : 1 ≤ c.w
  poly_four : exceeds 4 c.polyMaxBits = false
  frame_shortest : ∀ n, 1 ≤ n → exceeds n c.polyMaxBits = false → exceeds (c.w + (n - 1)) c.frameMaxBits = false
  reset_long : 2 ≤ c.polyReset.length
  reset_fits : exceeds c.polyReset.length c.polyMaxBits = false

/-- A legal value of POLY (10_state.md R21): every pattern of length `2 .. POLY_MAX_BITS`. -/
def LegalPoly (c : Config) (k : BitSeq) : Prop := 2 ≤ k.length ∧ exceeds k.length c.polyMaxBits = false

/-- What every response satisfies: `SEQ` is a `W`-bit value (30_encoding.md R64); an error carries defaults (R65,
60_exceptions.md R140); without DEC_OK no field of the frame is given out (42_framer.md R113); `BITS` fits the buffer. -/
structure Response.WellFormed (c : Config) (r : Response) : Prop where
  seq_range : r.seq < 2 ^ c.w
  error_defaults : r.status ≠ .ok → r = { status := r.status }
  nothing_leaks : r.outcome ≠ .decOk → r.seq = 0 ∧ r.data = []
  bits_fit : exceeds r.bits.length c.frameMaxBits = false

/-- What every event record satisfies, for some legal polynomial `k`, the one held when it was emitted: a FRAMED record's
frame is sequence field, payload of whole octets and checksum (30_encoding.md R67, R68); a CRC_FAIL record's frame was long
enough and does not verify; a MALFORMED_FRAME record's frame was too short, or verifies with a payload that is not a whole
number of octets (60_exceptions.md R142). -/
def Event.WellFormed (c : Config) (e : Event) : Prop :=
  ∃ k, LegalPoly c k ∧
    match e with
    | .framed p chk f =>
      exceeds f.length c.frameMaxBits = false ∧ p.length % 8 = 0 ∧ chk.length = k.length - 1 ∧
        ∃ seqF : BitSeq, seqF.length = c.w ∧ f = seqF ++ p ++ chk ∧ chk = checksum (seqF ++ p) k
    | .crcFail f =>
      exceeds f.length c.frameMaxBits = false ∧ c.w + (k.length - 1) ≤ f.length ∧ verifies f k = false
    | .malformedFrame f =>
      exceeds f.length c.frameMaxBits = false ∧
        (f.length < c.w + (k.length - 1) ∨
          (verifies f k = true ∧ (f.length - c.w - (k.length - 1)) % 8 ≠ 0))

/-- The invariant: POLY is legal (10_state.md R22) and everything answered and recorded so far is well formed. -/
structure State.Inv (c : Config) (s : State) : Prop where
  poly_legal : LegalPoly c s.poly
  responses_ok : ∀ r ∈ s.responses, Response.WellFormed c r
  events_ok : ∀ e ∈ s.events, Event.WellFormed c e

/-- The number of commands among what the host has asked for. -/
def commandCount (inputs : List HostInput) : Nat :=
  inputs.countP fun x => match x with
    | .command _ => true
    | .reset => false

end Sys2Proof.Machine
end

