-- ==== Sys2Proof/Certificates/Slice0/Obligations.lean ====
section
/-! DEFINITION. The statements for the provers, from the numbered rules of spec/. Statements about `exec` and `step` are
about this hardware, whose length parameters are open; statements about the operations of Machine/ are about every build
`c`, so that the LENGTH_LIMIT cases are met. -/

open Sys2Proof Sys2Proof.Machine

/-! ## Encoding -/

/-- 30_encoding.md R62, R75: the command word alone selects one of the five commands, or ILLEGAL. -/
def Obligations.CommandWordSelectsExactlyOneCommand : Prop :=
  ∀ r : Request,
    (r.cmd.toNat = 0x01 → decode r = .ok (.cfgPoly r.a)) ∧
    (r.cmd.toNat = 0x02 → decode r = .ok (.crcGen r.a)) ∧
    (r.cmd.toNat = 0x03 → decode r = .ok (.crcChk r.a)) ∧
    (r.cmd.toNat = 0x04 → decode r = .ok (.frmEnc r.s r.d)) ∧
    (r.cmd.toNat = 0x05 → decode r = .ok (.frmDec r.a)) ∧
    (r.cmd.toNat = 0 ∨ 5 < r.cmd.toNat → ∃ e, decode r = .error e)

/-- 30_encoding.md R62 and 95_test_vectors.md section 2.8: words written out bit by bit. -/
def Obligations.OpcodeMapWordsDecode : Prop :=
  decodeTableWord 8 0b00000001 = some (.cfgPoly []) ∧ decodeTableWord 8 0b00000010 = some (.crcGen []) ∧
  decodeTableWord 8 0b00000011 = some (.crcChk []) ∧ decodeTableWord 8 0b00000100 = some (.frmEnc 0 []) ∧
  decodeTableWord 8 0b00000101 = some (.frmDec []) ∧ decodeTableWord 8 0b00000000 = none ∧
  decodeTableWord 8 0b00000110 = none ∧ decodeTableWord 8 0b00010001 = none ∧ decodeTableWord 8 0b10000101 = none

/-- 30_encoding.md R60, R62: decoding an encoded instruction gives it back with every operand, and a request decodes to an
instruction exactly when it has that instruction's command word and used operands, whatever the ignored ones hold. -/
def Obligations.DecodeAndEncodeAgree : Prop :=
  (∀ i, decode (encode i) = .ok i) ∧
  ∀ r i, decode r = .ok i ↔
    r.cmd = (encode i).cmd ∧
      match i with
      | .cfgPoly a => r.a = a
      | .crcGen a => r.a = a
      | .crcChk a => r.a = a
      | .frmEnc seq data => r.s = seq ∧ r.d = data
      | .frmDec a => r.a = a

/-- 30_encoding.md R60 ("An ignored operand may hold any value; no value of it changes the command's result") and R63 ("The
operands are not examined"): two requests of one command word that agree on the operands that word uses step alike. -/
def Obligations.IgnoredOperandsNeverMatter : Prop :=
  ∀ (s : State) (r r' : Request) (rest : List HostInput),
    r.cmd = r'.cmd →
    (r.cmd.toNat ∈ [0x01, 0x02, 0x03, 0x05] → r.a = r'.a) →
    (r.cmd.toNat = 0x04 → r.s = r'.s ∧ r.d = r'.d) →
    step { s with inputs := .command r :: rest } = step { s with inputs := .command r' :: rest }

/-- 30_encoding.md R66: the code values of STATUS and OUTCOME. -/
def Obligations.StatusAndOutcomeCodes : Prop :=
  Status.code .ok = 0 ∧ Status.code .invalidConfiguration = 1 ∧ Status.code .illegalCommand = 2 ∧
  Status.code .lengthLimit = 3 ∧
  DecOutcome.code .none = 0 ∧ DecOutcome.code .decOk = 1 ∧ DecOutcome.code .corrupted = 2 ∧
  DecOutcome.code .malformed = 3

/-! ## Parameters, reset and steps -/

/-- 00_scope.md R5: this hardware's parameters meet the rule's conditions whatever the OPEN ones are, and what exceeding a
parameter means. That an unbounded POLY_MAX_BITS makes FRAME_MAX_BITS unbounded is the model's reading (log entry 4). -/
def Obligations.HardwareParametersAreLegal : Prop :=
  LegalBuild Config.hardware ∧ Config.hardware.w = 2 ∧
  (∀ len lim, exceeds len lim = true ↔ ∃ m, lim = some m ∧ m < len)

/-- 10_state.md R29, 70_reset_and_hazards.md R161: the first state of every run holds `b"1011"`. That nothing has been asked
or answered in it is the model's choice (log entries 1 and 2). -/
def Obligations.PowerOnStateHoldsTheDefaultPolynomial : Prop :=
  State.reset = { poly := [true, false, true, true], inputs := [], responses := [], events := [] }

/-- 70_reset_and_hazards.md R160: the reset action sets POLY and changes nothing else; no response, no record. -/
def Obligations.HostResetSetsPolyAndNothingElse : Prop :=
  ∀ (s : State) (rest : List HostInput), s.inputs = .reset :: rest →
    step s = .next { s with poly := [true, false, true, true], inputs := rest }

/-- 20_memory.md R47, R48: a step runs the command the oldest request decodes to, in the state with that request taken. -/
def Obligations.StepRunsTheDecodedCommand : Prop :=
  ∀ (s : State) (r : Request) (rest : List HostInput) (i : Instr),
    s.inputs = .command r :: rest → decode r = .ok i → step s = exec i { s with inputs := rest }

/-- 30_encoding.md R63: an illegal command word gets ILLEGAL_COMMAND and every default, and nothing else changes; 251 of the
256 words are illegal. -/
def Obligations.IllegalCommandWordIsAnswered : Prop :=
  (∀ (s : State) (r : Request) (rest : List HostInput), s.inputs = .command r :: rest →
    (r.cmd.toNat / 16 ≠ 0 ∨ r.cmd.toNat % 16 = 0 ∨ 6 ≤ r.cmd.toNat % 16) →
    step s = .next { s with
      inputs := rest
      responses := s.responses ++
        [{ status := .illegalCommand, bits := [], ok := false, outcome := .none, seq := 0, data := [] }] }) ∧
  (List.range 256).countP (fun w => (decodeTableWord 8 w).isNone) = 251

/-- 60_exceptions.md R151: between commands the codec is idle and keeps POLY. That an idle step answers a next state is the
model's reading (log entry 3). -/
def Obligations.IdleStepKeepsTheState : Prop :=
  ∀ s : State, s.inputs = [] → step s = .next s

/-- 70_reset_and_hazards.md R168: what the host has asked for is all performed, in as many steps as there are entries, and
every command gets its response. The queue of what is asked for is the model's choice (log entry 1). -/
def Obligations.EveryQueuedCommandGetsItsResponse : Prop :=
  ∀ s : State, ∃ t : State, Sys2Proof.core.run s.inputs.length s = .next t ∧ t.inputs = [] ∧
    t.responses.length = s.responses.length + commandCount s.inputs

/-- 20_memory.md R47, R48 and 10_state.md R27: every state has a step; it takes the oldest entry, appends one response for a
command and none for a reset, and appends at most one record; nothing answered or recorded is ever taken back. That what the
host asks for stands in a queue whose oldest entry a step takes is the model's choice (log entry 1), and that a state with
nothing asked has an idle step is the model's reading (log entry 3). -/
def Obligations.EachStepOnlyAppends : Prop :=
  ∀ s : State, ∃ (t : State) (rs : List Response) (es : List Event),
    step s = .next t ∧ t.inputs = s.inputs.tail ∧ t.responses = s.responses ++ rs ∧ t.events = s.events ++ es ∧
    es.length ≤ rs.length ∧ rs.length = commandCount (s.inputs.take 1)

/-- 60_exceptions.md R140: a command that raises a status leaves only its response, which carries the code and defaults. -/
def Obligations.AnErrorWritesNoStateAndEmitsNothing : Prop :=
  ∀ (s t : State) (r : Response), step s = .next t → t.responses = s.responses ++ [r] → r.status ≠ .ok →
    t = { s with
      inputs := s.inputs.tail
      responses := s.responses ++
        [{ status := r.status, bits := [], ok := false, outcome := .none, seq := 0, data := [] }] }

/-- 10_state.md R21: POLY is written by CFG_POLY, with its operand, and set by the reset action; by nothing else. -/
def Obligations.OnlyCfgPolyAndResetWritePoly : Prop :=
  ∀ s t : State, step s = .next t → t.poly ≠ s.poly →
    (∃ rest, s.inputs = .reset :: rest ∧ t.poly = [true, false, true, true]) ∨
    (∃ r rest, s.inputs = .command r :: rest ∧ r.cmd = 0x01 ∧ t.poly = r.a ∧ 2 ≤ r.a.length)

/-- 20_memory.md R49, 41_checksum_codec.md R99, 42_framer.md R118: what a command answers and records depends on POLY and its
operands alone; the four other commands keep POLY and CRC_GEN and CRC_CHK record nothing; CFG_POLY's answer does not depend on
POLY, it records nothing, and repeating it is idempotent. -/
def Obligations.CommandsReadOnlyPolyAndTheirOperands : Prop :=
  (∀ (i : Instr) (p : BitSeq), (∀ a, i ≠ .cfgPoly a) → ∃ (r : Response) (es : List Event),
    (∀ s : State, s.poly = p →
      exec i s = .next { s with responses := s.responses ++ [r], events := s.events ++ es }) ∧
    ((∃ a, i = .crcGen a ∨ i = .crcChk a) → es = [])) ∧
  (∀ a : BitSeq, ∃ (r : Response), ∀ s : State, ∃ p : BitSeq,
    exec (.cfgPoly a) s = .next { s with poly := p, responses := s.responses ++ [r] } ∧
    ∀ t : State, t.poly = p → exec (.cfgPoly a) t = .next { t with responses := t.responses ++ [r] })

/-- 70_reset_and_hazards.md R164, 20_memory.md R48: a CFG_POLY is in force for the very next command. That the two stand in a
queue, one step each, is the model's choice (log entry 1). -/
def Obligations.CfgPolyIsInForceForTheNextCommand : Prop :=
  ∀ (s : State) (k : BitSeq) (r₁ r₂ : Request) (rest : List HostInput) (i : Instr),
    s.inputs = .command r₁ :: .command r₂ :: rest → decode r₁ = .ok (.cfgPoly k) → decode r₂ = .ok i →
    2 ≤ k.length → exceeds k.length Config.hardware.polyMaxBits = false →
    Sys2Proof.core.run 2 s = exec i { s with poly := k, inputs := rest, responses := s.responses ++ [{}] }

/-! ## The five commands, in every build -/

/-- 40_configuration.md R80, whole: which operands are refused, with which status and nothing written, that every other
pattern is loaded, and that a loaded `b"0011"` divides exactly as `b"1011"`. -/
def Obligations.CfgPolyLoadsExactlyTheLegalPolynomials : Prop :=
  ∀ (c : Config) (s : State) (k : BitSeq), LegalBuild c →
    (encode (.cfgPoly k)).cmd.toNat = 0x01 ∧
    ¬ (exceeds k.length c.polyMaxBits = true ∧ k.length ≤ 1) ∧
    (exceeds k.length c.polyMaxBits = true →
      cfgPoly c k s = { s with responses := s.responses ++ [{ status := .lengthLimit }] }) ∧
    (k.length ≤ 1 →
      cfgPoly c k s = { s with responses := s.responses ++ [{ status := .invalidConfiguration }] }) ∧
    (2 ≤ k.length → exceeds k.length c.polyMaxBits = false →
      cfgPoly c k s = { s with poly := k, responses := s.responses ++ [{}] }) ∧
    (∀ buf : BitSeq, 4 ≤ buf.length →
      divide buf [false, false, true, true] = divide buf [true, false, true, true])

/-- 41_checksum_codec.md R93, whole: the two refusals, the `n - 1` bits of the remainder, and the rule's corner cases. -/
def Obligations.CrcGenReturnsTheRemainder : Prop :=
  ∀ (c : Config) (s : State) (m : BitSeq),
    (encode (.crcGen m)).cmd.toNat = 0x02 ∧
    (exceeds (m.length + (s.poly.length - 1)) c.frameMaxBits = true →
      crcGen c m s = { s with responses := s.responses ++ [{ status := .lengthLimit }] }) ∧
    (exceeds (m.length + (s.poly.length - 1)) c.frameMaxBits = false → m = [] →
      crcGen c m s = { s with responses := s.responses ++ [{ status := .invalidConfiguration }] }) ∧
    (exceeds (m.length + (s.poly.length - 1)) c.frameMaxBits = false → m ≠ [] →
      ∃ chk : BitSeq,
        crcGen c m s = { s with responses := s.responses ++ [{ bits := chk }] } ∧
        chk = divide (m ++ zeros (s.poly.length - 1)) s.poly ∧ chk.length = s.poly.length - 1 ∧
        (m = zeros m.length → chk = zeros (s.poly.length - 1)) ∧
        (m = [true] → s.poly = [true, false, true, true] → chk = [false, true, true]) ∧
        (s.poly = [true, true] → chk = [m.foldl xor false]) ∧
        (∀ b, s.poly = [b, false] → chk = [false]))

/-- 41_checksum_codec.md R94, whole: the two refusals, the zero test, and the rule's corner cases. -/
def Obligations.CrcChkTestsTheRemainder : Prop :=
  ∀ (c : Config) (s : State) (f : BitSeq),
    (encode (.crcChk f)).cmd.toNat = 0x03 ∧
    (exceeds f.length c.frameMaxBits = true →
      crcChk c f s = { s with responses := s.responses ++ [{ status := .lengthLimit }] }) ∧
    (exceeds f.length c.frameMaxBits = false → f.length < s.poly.length →
      crcChk c f s = { s with responses := s.responses ++ [{ status := .invalidConfiguration }] }) ∧
    (exceeds f.length c.frameMaxBits = false → 2 ≤ s.poly.length → s.poly.length ≤ f.length →
      ∃ ok : Bool,
        crcChk c f s = { s with responses := s.responses ++ [{ ok := ok }] } ∧
        (ok = true ↔ divide f s.poly = zeros (s.poly.length - 1)) ∧
        (f = zeros f.length → ok = true) ∧
        (s.poly.drop 1 = zeros (s.poly.length - 1) →
          (ok = true ↔ slice f (f.length - (s.poly.length - 1)) f.length = zeros (s.poly.length - 1))))

/-- 42_framer.md R110, whole: the two refusals, the frame and its record, the wrap of `S`, and that the checksum is the one
CRC_GEN computes. -/
def Obligations.FrmEncPacksTheFrame : Prop :=
  ∀ (c : Config) (s : State) (seq : Nat) (data : List Octet), LegalBuild c → LegalPoly c s.poly →
    (encode (.frmEnc seq data)).cmd.toNat = 0x04 ∧
    (exceeds data.length c.dataMaxOctets = true ∨
        exceeds (c.w + 8 * data.length + (s.poly.length - 1)) c.frameMaxBits = true →
      frmEnc c seq data s = { s with responses := s.responses ++ [{ status := .lengthLimit }] }) ∧
    (exceeds data.length c.dataMaxOctets = false →
        exceeds (c.w + 8 * data.length + (s.poly.length - 1)) c.frameMaxBits = false →
      ∃ p chk f : BitSeq,
        frmEnc c seq data s = { s with
          responses := s.responses ++ [{ bits := f }]
          events := s.events ++ [.framed p chk f] } ∧
        p = data.flatMap (fun o => bin 8 o.toNat) ∧
        chk = divide (bin c.w seq ++ p ++ zeros (s.poly.length - 1)) s.poly ∧
        f = bin c.w seq ++ p ++ chk ∧
        f.length = c.w + 8 * data.length + (s.poly.length - 1) ∧
        crcGen c (bin c.w seq ++ p) s = { s with responses := s.responses ++ [{ bits := chk }] }) ∧
    frmEnc c seq data s = frmEnc c (seq % 2 ^ c.w) data s

/-- 42_framer.md R112, whole: the refusal and the three steps in their order, each with its record; the range of SEQ; and
the frames of zeros, which verify under every polynomial. -/
def Obligations.FrmDecChecksInTheNumberedOrder : Prop :=
  ∀ (c : Config) (s : State) (f : BitSeq), LegalBuild c → LegalPoly c s.poly →
    (encode (.frmDec f)).cmd.toNat = 0x05 ∧
    (exceeds f.length c.frameMaxBits = true →
      frmDec c f s = { s with responses := s.responses ++ [{ status := .lengthLimit }] }) ∧
    (exceeds f.length c.frameMaxBits = false → f.length < c.w + (s.poly.length - 1) →
      frmDec c f s = { s with
        responses := s.responses ++ [{ outcome := .malformed }]
        events := s.events ++ [.malformedFrame f] }) ∧
    (exceeds f.length c.frameMaxBits = false → c.w + (s.poly.length - 1) ≤ f.length →
      divide f s.poly ≠ zeros (s.poly.length - 1) →
      frmDec c f s = { s with
        responses := s.responses ++ [{ outcome := .corrupted }]
        events := s.events ++ [.crcFail f] }) ∧
    (∀ p, exceeds f.length c.frameMaxBits = false → f.length = c.w + p + (s.poly.length - 1) →
      divide f s.poly = zeros (s.poly.length - 1) → p % 8 ≠ 0 →
      frmDec c f s = { s with
        responses := s.responses ++ [{ outcome := .malformed }]
        events := s.events ++ [.malformedFrame f] }) ∧
    (∀ p, exceeds f.length c.frameMaxBits = false → f.length = c.w + p + (s.poly.length - 1) →
      divide f s.poly = zeros (s.poly.length - 1) → p % 8 = 0 →
      ∃ (seq : Nat) (data : List Octet),
        frmDec c f s = { s with responses := s.responses ++ [{ outcome := .decOk, seq := seq, data := data }] } ∧
        seq = val (slice f 0 c.w) ∧ seq < 2 ^ c.w ∧ data.length = p / 8 ∧
        (∀ j, j < p / 8 →
          data[j]?.map BitVec.toNat = some (val (slice f (c.w + 8 * j) (c.w + 8 * j + 8))))) ∧
    (∀ p, exceeds f.length c.frameMaxBits = false → f.length = c.w + p + (s.poly.length - 1) → p % 8 = 0 →
      f = zeros f.length →
      frmDec c f s = { s with
        responses := s.responses ++ [{ outcome := .decOk, seq := 0, data := List.replicate (p / 8) 0 }] })

/-- 30_encoding.md R60, 60_exceptions.md R141, 00_scope.md R5: an operand longer than the request table admits gets
LENGTH_LIMIT, whichever command it is given to, and nothing else changes. -/
def Obligations.OverlongOperandsGetLengthLimit : Prop :=
  ∀ (c : Config) (s t : State), LegalBuild c →
    t = { s with responses := s.responses ++ [{ status := .lengthLimit }] } →
    (∀ a, exceeds a.length c.frameMaxBits = true →
      cfgPoly c a s = t ∧ crcGen c a s = t ∧ crcChk c a s = t ∧ frmDec c a s = t) ∧
    (∀ seq data, exceeds data.length c.dataMaxOctets = true → frmEnc c seq data s = t)

/-! ## The five commands complete, on this hardware -/

/-- 40_configuration.md R80: CFG_POLY with a legal operand loads it, and changes nothing but POLY and the response. -/
def Obligations.CfgPolyCompletes : Prop :=
  ∀ (s : State) (k : BitSeq), 2 ≤ k.length → exceeds k.length Config.hardware.polyMaxBits = false →
    exec (.cfgPoly k) s = .next { s with poly := k, responses := s.responses ++ [{}] }

/-- 41_checksum_codec.md R93: CRC_GEN of a non-empty message that fits the buffer returns its remainder and changes nothing
but the response. -/
def Obligations.CrcGenCompletes : Prop :=
  ∀ (s : State) (m : BitSeq), m ≠ [] →
    exceeds (m.length + (s.poly.length - 1)) Config.hardware.frameMaxBits = false →
    exec (.crcGen m) s = .next { s with
      responses := s.responses ++ [{ bits := divide (m ++ zeros (s.poly.length - 1)) s.poly }] }

/-- 41_checksum_codec.md R94: CRC_CHK of a codeword that is long enough and fits the buffer answers the zero test and changes
nothing but the response. -/
def Obligations.CrcChkCompletes : Prop :=
  ∀ (s : State) (f : BitSeq), s.poly.length ≤ f.length → exceeds f.length Config.hardware.frameMaxBits = false →
    exec (.crcChk f) s = .next { s with
      responses := s.responses ++ [{ ok := decide (divide f s.poly = zeros (s.poly.length - 1)) }] }

/-- 42_framer.md R111: FRM_ENC of a data unit that fits answers a well-formed frame, records it, and changes nothing else.
The frame's length, its first `W` bits, its payload and its checksum are as the rule says. -/
def Obligations.EveryEncodedFrameIsWellFormed : Prop :=
  ∀ (s : State) (seq : Nat) (data : List Octet),
    exceeds data.length Config.hardware.dataMaxOctets = false →
    exceeds (2 + 8 * data.length + (s.poly.length - 1)) Config.hardware.frameMaxBits = false →
    ∃ f : BitSeq,
      exec (.frmEnc seq data) s = .next { s with
        responses := s.responses ++ [{ bits := f }]
        events := s.events ++
          [.framed (slice f 2 (2 + 8 * data.length)) (slice f (2 + 8 * data.length) f.length) f] } ∧
      f.length = 2 + 8 * data.length + (s.poly.length - 1) ∧
      slice f 0 2 = bin 2 seq ∧
      slice f 2 (2 + 8 * data.length) = data.flatMap (fun o => bin 8 o.toNat) ∧
      slice f (2 + 8 * data.length) f.length =
        divide (slice f 0 (2 + 8 * data.length) ++ zeros (s.poly.length - 1)) s.poly

/-- 42_framer.md R112, 60_exceptions.md R142: FRM_DEC of a frame that fits the buffer completes with its outcome, and changes
nothing but the response and the record. -/
def Obligations.FrmDecCompletes : Prop :=
  ∀ (s : State) (f : BitSeq), exceeds f.length Config.hardware.frameMaxBits = false →
    (2 + (s.poly.length - 1) ≤ f.length → divide f s.poly = zeros (s.poly.length - 1) →
        (f.length - 2 - (s.poly.length - 1)) % 8 = 0 →
      exec (.frmDec f) s = .next { s with
        responses := s.responses ++
          [{ outcome := .decOk, seq := val (slice f 0 2),
             data := octetsFrom f 2 ((f.length - 2 - (s.poly.length - 1)) / 8) }] }) ∧
    (2 + (s.poly.length - 1) ≤ f.length → divide f s.poly ≠ zeros (s.poly.length - 1) →
      exec (.frmDec f) s = .next { s with
        responses := s.responses ++ [{ outcome := .corrupted }], events := s.events ++ [.crcFail f] }) ∧
    (2 + (s.poly.length - 1) ≤ f.length → divide f s.poly = zeros (s.poly.length - 1) →
        (f.length - 2 - (s.poly.length - 1)) % 8 ≠ 0 →
      exec (.frmDec f) s = .next { s with
        responses := s.responses ++ [{ outcome := .malformed }], events := s.events ++ [.malformedFrame f] }) ∧
    (f.length < 2 + (s.poly.length - 1) →
      exec (.frmDec f) s = .next { s with
        responses := s.responses ++ [{ outcome := .malformed }], events := s.events ++ [.malformedFrame f] })

/-- 42_framer.md R113: a response of FRM_DEC without DEC_OK carries no field of the frame; only the record does. -/
def Obligations.OnlyDecOkGivesFieldsOut : Prop :=
  ∀ (s t : State) (f : BitSeq) (r : Response), exec (.frmDec f) s = .next t → t.responses = s.responses ++ [r] →
    (r.outcome ≠ .decOk → r.bits = [] ∧ r.ok = false ∧ r.seq = 0 ∧ r.data = []) ∧
    (r.outcome = .corrupted → t.events = s.events ++ [.crcFail f]) ∧
    (r.outcome = .malformed → t.events = s.events ++ [.malformedFrame f]) ∧
    (r.outcome = .decOk ∨ r.outcome = .none → t.events = s.events)

/-! ## Bits and numbers -/

/-- 00_scope.md R8: `bin_k(v)` has length `k` and writes `v mod 2^k` most significant bit first; `val` reads it back, and is
the sum of the rule. -/
def Obligations.BinWritesMostSignificantBitFirst : Prop :=
  (∀ k v, (bin k v).length = k) ∧
  (∀ k v i, i < k → (bin k v)[i]? = some ((v / 2 ^ (k - 1 - i)) % 2 == 1)) ∧
  (∀ k v, val (bin k v) = v % 2 ^ k) ∧
  (∀ s : BitSeq, val s = ∑ i ∈ Finset.range s.length, (s[i]?.getD false).toNat * 2 ^ (s.length - 1 - i))

/-- 20_memory.md R43: octet `j` of the data unit occupies payload bits `8j .. 8j + 7`, most significant bit first. -/
def Obligations.PayloadKeepsOctetOrder : Prop :=
  ∀ (data : List Octet), (payload data).length = 8 * data.length ∧
    ∀ j o, data[j]? = some o → slice (payload data) (8 * j) (8 * j + 8) = bin 8 o.toNat

/-! ## Division and its laws -/

/-- 41_checksum_codec.md R91: the first bit of the polynomial never affects the result. -/
def Obligations.FirstPolynomialBitNeverAffectsTheResult : Prop :=
  ∀ buf k k' : BitSeq, 2 ≤ k.length → k.length ≤ buf.length → k'.length = k.length → k.drop 1 = k'.drop 1 →
    divide buf k = divide buf k'

/-- 41_checksum_codec.md R92: division is linear over modulo-2 addition, with its consequences (a) and (b). -/
def Obligations.DivisionIsLinear : Prop :=
  ∀ b₁ b₂ k : BitSeq, b₁.length = b₂.length → 2 ≤ k.length → k.length ≤ b₁.length →
    divide (xorBits b₁ b₂) k = xorBits (divide b₁ k) (divide b₂ k) ∧
    (slice b₁ 0 (b₁.length - k.length + 1) = zeros (b₁.length - k.length + 1) →
      divide b₁ k = slice b₁ (b₁.length - (k.length - 1)) b₁.length) ∧
    (k.drop 1 = zeros (k.length - 1) → divide b₁ k = slice b₁ (b₁.length - (k.length - 1)) b₁.length)

/-- 41_checksum_codec.md R95: a message followed by the checksum CRC_GEN returns for it passes CRC_CHK. -/
def Obligations.ChecksumRoundTrip : Prop :=
  ∀ (s s' : State) (m : BitSeq), LegalPoly Config.hardware s.poly → s'.poly = s.poly → 1 ≤ m.length →
    exceeds (m.length + (s.poly.length - 1)) Config.hardware.frameMaxBits = false →
    ∃ chk : BitSeq,
      exec (.crcGen m) s = .next { s with responses := s.responses ++ [{ bits := chk }] } ∧
      exec (.crcChk (m ++ chk)) s' = .next { s' with responses := s'.responses ++ [{ status := .ok, ok := true }] }

/-- 41_checksum_codec.md R96: an error pattern goes unnoticed exactly when it divides to zero itself; the rule's examples. -/
def Obligations.ErrorDetectionIsLinear : Prop :=
  (∀ f e k : BitSeq, 2 ≤ k.length → k.length ≤ f.length → e.length = f.length →
    divide f k = zeros (k.length - 1) →
    (divide (xorBits f e) k = zeros (k.length - 1) ↔ divide e k = zeros (k.length - 1))) ∧
  (∀ f : BitSeq, 4 ≤ f.length → verifies f [true, false, true, true] = true →
    verifies (flipBit 0 (flipBit 2 (flipBit 3 f))) [true, false, true, true] = true) ∧
  flipBit 0 (flipBit 2 (flipBit 3 (bin 13 0b0001001000001))) = bin 13 0b1010001000001 ∧
  verifies (bin 13 0b0001001000001) [true, false, true, true] = true ∧
  verifies (bin 13 0b1010001000001) [true, false, true, true] = true

/-- 41_checksum_codec.md R97: under `b"1011"` CRC_CHK notices every single-bit flip of a verifying codeword; in general every
flip is noticed exactly when `K[1..n)` is not all zero, and otherwise a flip before the last `n - 1` bits is not. -/
def Obligations.SingleBitFlipsAreDetected : Prop :=
  (∀ (s : State) (f : BitSeq) (i : Nat), s.poly = [true, false, true, true] → 4 ≤ f.length →
    exceeds f.length Config.hardware.frameMaxBits = false → verifies f s.poly = true → i < f.length →
    exec (.crcChk (flipBit i f)) s = .next { s with responses := s.responses ++ [{ status := .ok, ok := false }] }) ∧
  (∀ (k f : BitSeq) (i : Nat), 2 ≤ k.length → k.length ≤ f.length → verifies f k = true → i < f.length →
    k.drop 1 ≠ zeros (k.length - 1) → verifies (flipBit i f) k = false) ∧
  (∀ (k f : BitSeq) (i : Nat), 2 ≤ k.length → k.length ≤ f.length → verifies f k = true →
    i < f.length - (k.length - 1) → k.drop 1 = zeros (k.length - 1) → verifies (flipBit i f) k = true)

/-! ## Frames -/

/-- 42_framer.md R114: a frame FRM_ENC returns is decoded, by a codec that holds the same polynomial, to the sequence number
modulo `2^W` and the data unit. -/
def Obligations.FrameRoundTrip : Prop :=
  ∀ (s s' : State) (seq : Nat) (data : List Octet), LegalPoly Config.hardware s.poly → s'.poly = s.poly →
    exceeds data.length Config.hardware.dataMaxOctets = false →
    exceeds (Config.hardware.w + 8 * data.length + (s.poly.length - 1)) Config.hardware.frameMaxBits = false →
    ∃ f : BitSeq,
      exec (.frmEnc seq data) s = .next { s with
        responses := s.responses ++ [{ bits := f }]
        events := s.events ++
          [.framed (slice f 2 (2 + 8 * data.length)) (slice f (2 + 8 * data.length) f.length) f] } ∧
      exec (.frmDec f) s' = .next { s' with
        responses := s'.responses ++
          [{ status := .ok, outcome := .decOk, seq := seq % 2 ^ Config.hardware.w, data := data }] }

/-- 42_framer.md R115: under `b"1011"` a frame with one bit flipped is reported CORRUPTED; a multi-bit error can go
undetected. -/
def Obligations.SingleBitFlipNeverDecodes : Prop :=
  (∀ (s s' : State) (seq : Nat) (data : List Octet) (i : Nat),
    s.poly = [true, false, true, true] → s'.poly = [true, false, true, true] →
    exceeds data.length Config.hardware.dataMaxOctets = false →
    exceeds (2 + 8 * data.length + 3) Config.hardware.frameMaxBits = false →
    i < 2 + 8 * data.length + 3 →
    ∃ f : BitSeq,
      exec (.frmEnc seq data) s = .next { s with
        responses := s.responses ++ [{ bits := f }]
        events := s.events ++
          [.framed (slice f 2 (2 + 8 * data.length)) (slice f (2 + 8 * data.length) f.length) f] } ∧
      exec (.frmDec (flipBit i f)) s' = .next { s' with
        responses := s'.responses ++ [{ outcome := .corrupted }]
        events := s'.events ++ [.crcFail (flipBit i f)] }) ∧
  (∃ f f' : BitSeq, f ≠ f' ∧ f.length = f'.length ∧ verifies f [true, false, true, true] = true ∧
    verifies f' [true, false, true, true] = true)

/-! ## The invariant -/

/-- 10_state.md R22, with R29 and 00_scope.md R5: the invariant holds in the first state of every run. -/
def Obligations.ResetMeetsTheInvariant : Prop :=
  State.Inv Config.hardware State.reset

/-- 10_state.md R22, 30_encoding.md R64, R65, R67, R68, 42_framer.md R113, 60_exceptions.md R142: every step, from every state
that meets the invariant, keeps POLY legal and every response and record well formed. -/
def Obligations.EveryStepKeepsTheInvariant : Prop :=
  ∀ s t : State, State.Inv Config.hardware s → step s = .next t → State.Inv Config.hardware t
end

