-- ==== Sys2Proof/Laws/Operands.lean ====
section
/-! SUPPORT. The small lemmas of the operand forms. -/

namespace Sys2Proof.Machine

@[simp] theorem exceeds_none (len : Nat) : exceeds len none = false := rfl

theorem exceeds_some (len m : Nat) : exceeds len (some m) = true ↔ m < len := by simp [exceeds]

/-- A parameter that admits a length admits every shorter one. -/
theorem exceeds_mono {a b : Nat} {m : Limit} (hab : a ≤ b) (h : exceeds b m = false) : exceeds a m = false := by
  cases m with
  | none => rfl
  | some m => simp [exceeds] at *; omega

@[simp] theorem zeros_length (k : Nat) : (zeros k).length = k := by simp [zeros]

@[simp] theorem zeros_zero : zeros 0 = [] := rfl

theorem zeros_succ (k : Nat) : zeros (k + 1) = false :: zeros k := rfl

theorem zeros_append (a b : Nat) : zeros a ++ zeros b = zeros (a + b) := by simp [zeros]

@[simp] theorem bin_length (k v : Nat) : (bin k v).length = k := by
  induction k with
  | zero => rfl
  | succ k ih => simp [bin, ih]

@[simp] theorem seqField_length (w seq : Nat) : (seqField w seq).length = w := bin_length w seq

theorem val_lt (s : BitSeq) : val s < 2 ^ s.length := by
  induction s with
  | nil => simp [val]
  | cons b s ih =>
    have h2 : 2 ^ (s.length + 1) = 2 ^ s.length + 2 ^ s.length := by omega
    cases b <;> simp [val] <;> omega

@[simp] theorem payload_nil : payload [] = [] := rfl

theorem payload_cons (o : Octet) (data : List Octet) : payload (o :: data) = bin 8 o.toNat ++ payload data := rfl

@[simp] theorem payload_length (data : List Octet) : (payload data).length = 8 * data.length := by
  induction data with
  | nil => rfl
  | cons o data ih => simp [payload_cons, ih]; omega

theorem slice_length (s : BitSeq) (a b : Nat) (h : b ≤ s.length) : (slice s a b).length = b - a := by
  simp [slice]; omega

@[simp] theorem octetsFrom_length (f : BitSeq) (start count : Nat) : (octetsFrom f start count).length = count := by
  simp [octetsFrom]

theorem xorBits_length (a b : BitSeq) (h : a.length = b.length) : (xorBits a b).length = a.length := by
  simp [xorBits, h]

@[simp] theorem flipBit_length (i : Nat) (f : BitSeq) : (flipBit i f).length = f.length := by simp [flipBit]

end Sys2Proof.Machine
end

