-- ==== Sys2Proof/Laws/Division.lean ====
section
/-! SUPPORT. Division: lengths, and a form of it by recursion on the buffer that drops each bit once it has been tested. -/

namespace Sys2Proof.Machine

@[simp] theorem xorInto_length (k : BitSeq) (i : Nat) (buf : BitSeq) : (xorInto k i buf).length = buf.length := by
  induction k generalizing i buf with
  | nil => rfl
  | cons kj k ih => simp [xorInto, ih]

@[simp] theorem divideAt_length (k : BitSeq) (i : Nat) (buf : BitSeq) : (divideAt k i buf).length = buf.length := by
  unfold divideAt; split <;> simp

@[simp] theorem divideLoop_length (k : BitSeq) (count i : Nat) (buf : BitSeq) :
    (divideLoop k count i buf).length = buf.length := by
  induction count generalizing i buf with
  | zero => rfl
  | succ count ih => simp [divideLoop, ih]

/-- The remainder has `n - 1` bits (41_checksum_codec.md R90). -/
theorem divide_length (buf k : BitSeq) (h : k.length - 1 ≤ buf.length) : (divide buf k).length = k.length - 1 := by
  simp [divide]; omega

@[simp] theorem checksum_length (m k : BitSeq) : (checksum m k).length = k.length - 1 :=
  divide_length _ _ (by simp)

/-- The pattern `k` added onto the first bits of `buf`. -/
def xorFront : (k buf : BitSeq) → BitSeq
  | [], buf => buf
  | _, [] => []
  | kj :: k, b :: buf => xor b kj :: xorFront k buf

/-- `count` positions of the scan, each dropping the bit it tests; `k` is the polynomial without its first bit. -/
def scan (k : BitSeq) : (count : Nat) → (buf : BitSeq) → BitSeq
  | 0, buf => buf
  | _ + 1, [] => []
  | count + 1, b :: buf => scan k count (if b then xorFront k buf else buf)

@[simp] theorem xorFront_nil (k : BitSeq) : xorFront k [] = [] := by cases k <;> rfl

@[simp] theorem xorFront_length (k buf : BitSeq) : (xorFront k buf).length = buf.length := by
  induction k generalizing buf with
  | nil => rfl
  | cons kj k ih => cases buf <;> simp [xorFront, ih]

theorem xorInto_cons (k : BitSeq) (i : Nat) (b : Bool) (buf : BitSeq) :
    xorInto k (i + 1) (b :: buf) = b :: xorInto k i buf := by
  induction k generalizing i buf with
  | nil => rfl
  | cons kj k ih => simp [xorInto, ih]

theorem xorInto_zero (k buf : BitSeq) : xorInto k 0 buf = xorFront k buf := by
  induction k generalizing buf with
  | nil => rfl
  | cons kj k ih =>
    cases buf with
    | nil => exact List.length_eq_zero_iff.mp (by simp)
    | cons b buf => simp [xorInto, xorFront, xorInto_cons, ih]

theorem divideLoop_cons (k : BitSeq) (count i : Nat) (b : Bool) (buf : BitSeq) :
    divideLoop k count (i + 1) (b :: buf) = b :: divideLoop k count i buf := by
  induction count generalizing i buf with
  | zero => rfl
  | succ count ih =>
    have h : divideAt k (i + 1) (b :: buf) = b :: divideAt k i buf := by
      simp only [divideAt, List.getElem?_cons_succ]
      split <;> simp [xorInto_cons]
    simp only [divideLoop, h, ih]

theorem divideLoop_nil (k : BitSeq) (count i : Nat) : divideLoop k count i [] = [] :=
  List.length_eq_zero_iff.mp (by simp)

theorem divideLoop_drop (kh : Bool) (k : BitSeq) (count : Nat) (buf : BitSeq) :
    (divideLoop (kh :: k) count 0 buf).drop count = scan k count buf := by
  induction count generalizing buf with
  | zero => rfl
  | succ count ih =>
    cases buf with
    | nil => simp [divideLoop_nil, scan]
    | cons b buf =>
      have h : divideAt (kh :: k) 0 (b :: buf) =
          xor b (b && kh) :: (if b then xorFront k buf else buf) := by
        cases b <;> simp [divideAt, xorInto, xorInto_cons, xorInto_zero]
      simp only [divideLoop, h, divideLoop_cons, List.drop_succ_cons, ih, scan]

/-- Under the precondition of 41_checksum_codec.md R90, division is the dropping scan. -/
theorem divide_eq_scan (buf k : BitSeq) (h1 : 1 ≤ k.length) (h2 : k.length ≤ buf.length) :
    divide buf k = scan k.tail (buf.length - k.length + 1) buf := by
  cases k with
  | nil => simp at h1
  | cons kh k =>
    have h : buf.length - ((kh :: k).length - 1) = buf.length - (kh :: k).length + 1 := by
      simp at *; omega
    simp only [divide, h, List.tail_cons]
    exact divideLoop_drop kh k _ buf

@[simp] theorem scan_length (k : BitSeq) (count : Nat) (buf : BitSeq) :
    (scan k count buf).length = buf.length - count := by
  induction count generalizing buf with
  | zero => rfl
  | succ count ih =>
    cases buf with
    | nil => simp [scan]
    | cons b buf => cases b <;> simp [scan, ih]

theorem verifies_iff (f k : BitSeq) : verifies f k = true ↔ divide f k = zeros (k.length - 1) := by
  simp [verifies]

theorem verifies_false_iff (f k : BitSeq) : verifies f k = false ↔ divide f k ≠ zeros (k.length - 1) := by
  simp [verifies]

end Sys2Proof.Machine
end

