-- ==== Sys2Proof/Laws/State.lean ====
section
/-! SUPPORT. One lemma per field per update of the state, each true by rfl, and the shapes of the named operations. -/

namespace Sys2Proof.Machine

variable (s : State) (k : BitSeq) (r : Response) (e : Event) (c : Config) (st : Status)

@[simp] theorem writePoly_poly : (writePoly k s).poly = k := rfl
@[simp] theorem writePoly_inputs : (writePoly k s).inputs = s.inputs := rfl
@[simp] theorem writePoly_responses : (writePoly k s).responses = s.responses := rfl
@[simp] theorem writePoly_events : (writePoly k s).events = s.events := rfl

@[simp] theorem respond_poly : (respond r s).poly = s.poly := rfl
@[simp] theorem respond_inputs : (respond r s).inputs = s.inputs := rfl
@[simp] theorem respond_responses : (respond r s).responses = s.responses ++ [r] := rfl
@[simp] theorem respond_events : (respond r s).events = s.events := rfl

@[simp] theorem emit_poly : (emit e s).poly = s.poly := rfl
@[simp] theorem emit_inputs : (emit e s).inputs = s.inputs := rfl
@[simp] theorem emit_responses : (emit e s).responses = s.responses := rfl
@[simp] theorem emit_events : (emit e s).events = s.events ++ [e] := rfl

@[simp] theorem raise_poly : (raise st s).poly = s.poly := rfl
@[simp] theorem raise_inputs : (raise st s).inputs = s.inputs := rfl
@[simp] theorem raise_responses : (raise st s).responses = s.responses ++ [{ status := st }] := rfl
@[simp] theorem raise_events : (raise st s).events = s.events := rfl

@[simp] theorem resetAction_poly : (resetAction c s).poly = c.polyReset := rfl
@[simp] theorem resetAction_inputs : (resetAction c s).inputs = s.inputs := rfl
@[simp] theorem resetAction_responses : (resetAction c s).responses = s.responses := rfl
@[simp] theorem resetAction_events : (resetAction c s).events = s.events := rfl

@[simp] theorem issueWord_poly (nbits w : Nat) : (issueWord nbits w s).poly = s.poly := rfl
@[simp] theorem issueWord_inputs (nbits w : Nat) :
    (issueWord nbits w s).inputs = .command (tableRequest nbits w) :: s.inputs := rfl
@[simp] theorem issueWord_responses (nbits w : Nat) : (issueWord nbits w s).responses = s.responses := rfl
@[simp] theorem issueWord_events (nbits w : Nat) : (issueWord nbits w s).events = s.events := rfl

end Sys2Proof.Machine
end

