-- ==== Sys2Proof/Laws/Commands.lean ====
section
/-! SUPPORT. One lemma per command: everything it can do, with the conditions under which it does it. -/

namespace Sys2Proof.Machine

variable (c : Config) (s : State)

/-- CFG_POLY ends in one of three ways (40_configuration.md R80). -/
theorem cfgPoly_cases (k : BitSeq) :
    (exceeds k.length c.polyMaxBits = true ∧ cfgPoly c k s = raise .lengthLimit s) ∨
    (exceeds k.length c.polyMaxBits = false ∧ k.length ≤ 1 ∧ cfgPoly c k s = raise .invalidConfiguration s) ∨
    (exceeds k.length c.polyMaxBits = false ∧ 2 ≤ k.length ∧ cfgPoly c k s = respond {} (writePoly k s)) := by
  unfold cfgPoly
  split
  · exact .inl ⟨‹_›, rfl⟩
  · split
    · exact .inr (.inl ⟨by simpa using ‹¬ exceeds _ _ = true›, ‹_›, rfl⟩)
    · exact .inr (.inr ⟨by simpa using ‹¬ exceeds _ _ = true›, by omega, rfl⟩)

/-- CRC_GEN ends in one of three ways (41_checksum_codec.md R93). -/
theorem crcGen_cases (m : BitSeq) :
    (exceeds (m.length + (s.poly.length - 1)) c.frameMaxBits = true ∧ crcGen c m s = raise .lengthLimit s) ∨
    (exceeds (m.length + (s.poly.length - 1)) c.frameMaxBits = false ∧ m = [] ∧
      crcGen c m s = raise .invalidConfiguration s) ∨
    (exceeds (m.length + (s.poly.length - 1)) c.frameMaxBits = false ∧ m ≠ [] ∧
      crcGen c m s = respond { bits := checksum m s.poly } s) := by
  unfold crcGen
  dsimp only
  split
  · exact .inl ⟨‹_›, rfl⟩
  · have hfit := by simpa using ‹¬ exceeds _ _ = true›
    split
    · exact .inr (.inl ⟨hfit, List.length_eq_zero_iff.mp ‹_›, rfl⟩)
    · exact .inr (.inr ⟨hfit, fun h => ‹¬ m.length = 0› (by simp [h]), rfl⟩)

/-- CRC_CHK ends in one of three ways (41_checksum_codec.md R94). -/
theorem crcChk_cases (f : BitSeq) :
    (exceeds f.length c.frameMaxBits = true ∧ crcChk c f s = raise .lengthLimit s) ∨
    (exceeds f.length c.frameMaxBits = false ∧ f.length < s.poly.length ∧
      crcChk c f s = raise .invalidConfiguration s) ∨
    (exceeds f.length c.frameMaxBits = false ∧ s.poly.length ≤ f.length ∧
      crcChk c f s = respond { ok := verifies f s.poly } s) := by
  unfold crcChk
  dsimp only
  split
  · exact .inl ⟨‹_›, rfl⟩
  · have hfit := by simpa using ‹¬ exceeds _ _ = true›
    split
    · exact .inr (.inl ⟨hfit, ‹_›, rfl⟩)
    · exact .inr (.inr ⟨hfit, by omega, rfl⟩)

/-- The frame FRM_ENC packs: sequence field, payload, checksum (30_encoding.md R67, R68). -/
def frameOf (w seq : Nat) (data : List Octet) (k : BitSeq) : BitSeq :=
  seqField w seq ++ payload data ++ checksum (seqField w seq ++ payload data) k

@[simp] theorem frameOf_length (w seq : Nat) (data : List Octet) (k : BitSeq) :
    (frameOf w seq data k).length = w + 8 * data.length + (k.length - 1) := by
  simp [frameOf]; omega

/-- FRM_ENC ends in one of two ways (42_framer.md R110). -/
theorem frmEnc_cases (seq : Nat) (data : List Octet) :
    ((exceeds data.length c.dataMaxOctets = true ∨
        exceeds (c.w + 8 * data.length + (s.poly.length - 1)) c.frameMaxBits = true) ∧
      frmEnc c seq data s = raise .lengthLimit s) ∨
    (exceeds data.length c.dataMaxOctets = false ∧
      exceeds (c.w + 8 * data.length + (s.poly.length - 1)) c.frameMaxBits = false ∧
      frmEnc c seq data s = respond { bits := frameOf c.w seq data s.poly }
        (emit (.framed (payload data) (checksum (seqField c.w seq ++ payload data) s.poly)
          (frameOf c.w seq data s.poly)) s)) := by
  unfold frmEnc
  dsimp only
  split
  · exact .inl ⟨.inl ‹_›, rfl⟩
  · have hdata := by simpa using ‹¬ exceeds _ _ = true›
    split
    · exact .inl ⟨.inr ‹_›, rfl⟩
    · exact .inr ⟨hdata, by simpa using ‹¬ exceeds (_ + _) _ = true›, rfl⟩

/-- FRM_DEC ends in one of five ways (42_framer.md R112). -/
theorem frmDec_cases (f : BitSeq) :
    (exceeds f.length c.frameMaxBits = true ∧ frmDec c f s = raise .lengthLimit s) ∨
    (exceeds f.length c.frameMaxBits = false ∧ f.length < c.w + (s.poly.length - 1) ∧
      frmDec c f s = respond { outcome := .malformed } (emit (.malformedFrame f) s)) ∨
    (exceeds f.length c.frameMaxBits = false ∧ c.w + (s.poly.length - 1) ≤ f.length ∧
      verifies f s.poly = false ∧ frmDec c f s = respond { outcome := .corrupted } (emit (.crcFail f) s)) ∨
    (exceeds f.length c.frameMaxBits = false ∧ c.w + (s.poly.length - 1) ≤ f.length ∧
      verifies f s.poly = true ∧ (f.length - c.w - (s.poly.length - 1)) % 8 ≠ 0 ∧
      frmDec c f s = respond { outcome := .malformed } (emit (.malformedFrame f) s)) ∨
    (exceeds f.length c.frameMaxBits = false ∧ c.w + (s.poly.length - 1) ≤ f.length ∧
      verifies f s.poly = true ∧ (f.length - c.w - (s.poly.length - 1)) % 8 = 0 ∧
      frmDec c f s = respond
        { outcome := .decOk, seq := val (slice f 0 c.w),
          data := octetsFrom f c.w ((f.length - c.w - (s.poly.length - 1)) / 8) } s) := by
  unfold frmDec
  dsimp only
  split
  · exact .inl ⟨‹_›, rfl⟩
  have hfit := by simpa using ‹¬ exceeds _ _ = true›
  split
  · exact .inr (.inl ⟨hfit, ‹_›, rfl⟩)
  have hlong := Nat.le_of_not_lt ‹¬ _ < _›
  split
  · exact .inr (.inr (.inl ⟨hfit, hlong, by simpa using ‹(!verifies _ _) = true›, rfl⟩))
  have hver := by simpa using ‹¬ (!verifies _ _) = true›
  split
  · exact .inr (.inr (.inr (.inl ⟨hfit, hlong, hver, ‹_›, rfl⟩)))
  · exact .inr (.inr (.inr (.inr ⟨hfit, hlong, hver, by omega, rfl⟩)))

end Sys2Proof.Machine
end

