-- ==== Sys2Proof/Laws/Config.lean ====
section
/-! SUPPORT. The parameters of this hardware, whatever its three OPEN ones are, and that they exclude no legal choice. -/

namespace Sys2Proof.Machine

@[simp] theorem hardware_w : Config.hardware.w = 2 := rfl

@[simp] theorem hardware_polyReset : Config.hardware.polyReset = [true, false, true, true] := rfl

theorem polyLimit_admits_four (slack : Option Nat) : exceeds 4 (Config.polyLimit slack) = false := by
  cases slack <;> simp [Config.polyLimit, exceeds]

theorem frameLimit_admits_shortest (w n : Nat) (ps fs : Option Nat) (hn : 1 ≤ n)
    (h : exceeds n (Config.polyLimit ps) = false) :
    exceeds (w + (n - 1)) (Config.frameLimit w ps fs) = false := by
  cases ps <;> cases fs <;> simp [Config.polyLimit, Config.frameLimit, exceeds] at *
  omega

/-- Every pair of parameters that meets 00_scope.md R5 comes from some pair of excesses: the opaque constants leave every
legal build open. -/
theorem every_legal_limit_arises (w : Nat) (poly frame : Limit) (h4 : ∀ p, poly = some p → 4 ≤ p)
    (hf : ∀ f, frame = some f → ∃ p, poly = some p ∧ w + p - 1 ≤ f) :
    ∃ ps fs, Config.polyLimit ps = poly ∧ Config.frameLimit w ps fs = frame := by
  cases frame with
  | none =>
    cases poly with
    | none => exact ⟨none, none, rfl, rfl⟩
    | some p => exact ⟨some (p - 4), none, by simp [Config.polyLimit]; have := h4 p rfl; omega, rfl⟩
  | some f =>
    obtain ⟨p, rfl, hp⟩ := hf f rfl
    have := h4 p rfl
    exact ⟨some (p - 4), some (f - (w + p - 1)), by simp [Config.polyLimit]; omega,
      by simp [Config.frameLimit]; omega⟩

theorem hardware_admits_four : exceeds 4 Config.hardware.polyMaxBits = false := polyLimit_admits_four _

/-- The shortest frame of the reset polynomial, five bits, always fits. -/
theorem hardware_admits_five_bits : exceeds 5 Config.hardware.frameMaxBits = false :=
  frameLimit_admits_shortest 2 4 _ _ (by omega) hardware_admits_four

theorem hardware_admits_no_data : exceeds 0 Config.hardware.dataMaxOctets = false := by
  cases h : Config.hardware.dataMaxOctets <;> simp [exceeds]

end Sys2Proof.Machine
end

