-- ==== Sys2Proof/Laws/Decode.lean ====
section
/-! SUPPORT. The two fields of a command word as numbers. -/

namespace Sys2Proof

theorem opField_toNat (cmd : CmdWord) : (opField cmd).toNat = cmd.toNat % 16 := by
  simp [opField, BitVec.extractLsb'_toNat]

theorem rsvField_toNat (cmd : CmdWord) : (rsvField cmd).toNat = cmd.toNat / 16 := by
  have h := cmd.isLt
  simp only [rsvField, BitVec.extractLsb'_toNat, Nat.shiftRight_eq_div_pow]
  omega

/-- A word is its two fields. -/
theorem cmd_toNat (cmd : CmdWord) : cmd.toNat = 16 * (rsvField cmd).toNat + (opField cmd).toNat := by
  rw [opField_toNat, rsvField_toNat]; omega

end Sys2Proof
end

