-- ==== Sys2Proof/Laws/Frames.lean ====
section
/-! SUPPORT. The fields of the frame FRM_ENC packs, by position (30_encoding.md R67). -/

namespace Sys2Proof.Machine

variable (w seq : Nat) (data : List Octet) (k : BitSeq)

theorem frameOf_seqField : slice (frameOf w seq data k) 0 w = seqField w seq := by
  simp only [slice, frameOf, List.append_assoc, List.drop_zero]
  rw [List.take_left' (by simp)]

theorem frameOf_payload : slice (frameOf w seq data k) w (w + 8 * data.length) = payload data := by
  simp only [slice, frameOf, List.append_assoc]
  rw [List.drop_left' (by simp), List.take_left' (by simp)]

theorem frameOf_message : slice (frameOf w seq data k) 0 (w + 8 * data.length) = seqField w seq ++ payload data := by
  simp only [slice, frameOf, List.drop_zero]
  rw [List.take_left' (by simp)]

theorem frameOf_checksum : slice (frameOf w seq data k) (w + 8 * data.length) (frameOf w seq data k).length =
    checksum (seqField w seq ++ payload data) k := by
  simp only [slice]
  rw [List.take_of_length_le (by simp), frameOf, List.drop_left' (by simp)]

end Sys2Proof.Machine
end

