-- ==== Sys2Proof/Laws/PerInstr.lean ====
section
/-! SUPPORT. A fact about every instruction as syntax, one lemma per constructor. -/

namespace Sys2Proof.Laws.CommandWord

/-- The encoder's command word has `RSV = 0000` and one of the five opcodes (30_encoding.md R61, R62). -/
def Statement (i : Instr) : Prop :=
  rsvField (encode i).cmd = 0 ∧ 1 ≤ (opField (encode i).cmd).toNat ∧ (opField (encode i).cmd).toNat ≤ 5

theorem cfgPoly (a : BitSeq) : Statement (.cfgPoly a) := by simp [Statement, encode, rsvField, opField]
theorem crcGen (a : BitSeq) : Statement (.crcGen a) := by simp [Statement, encode, rsvField, opField]
theorem crcChk (a : BitSeq) : Statement (.crcChk a) := by simp [Statement, encode, rsvField, opField]
theorem frmEnc (seq : Nat) (data : List Octet) : Statement (.frmEnc seq data) :=
  by simp [Statement, encode, rsvField, opField]
theorem frmDec (a : BitSeq) : Statement (.frmDec a) := by simp [Statement, encode, rsvField, opField]

end Sys2Proof.Laws.CommandWord
end

