-- ==== Sys2Proof/Laws/Scan.lean ====
section
/-! SUPPORT. Bitwise addition of sequences, and how the dropping scan of Laws/Division.lean meets it. -/

namespace Sys2Proof.Machine

theorem xorBits_comm (a b : BitSeq) : xorBits a b = xorBits b a := by
  simp only [xorBits]
  rw [List.zipWith_comm]
  congr
  funext x y
  exact Bool.xor_comm ..

@[simp] theorem xorBits_self (a : BitSeq) : xorBits a a = zeros a.length := by
  induction a with
  | nil => rfl
  | cons x a ih => simp [xorBits] at *; simp [ih, zeros_succ]

theorem xorBits_zeros (a : BitSeq) : xorBits a (zeros a.length) = a := by
  induction a with
  | nil => rfl
  | cons x a ih => simp [xorBits, zeros_succ] at *; exact ih

theorem xorBits_append (a b c d : BitSeq) (h : a.length = c.length) :
    xorBits (a ++ b) (c ++ d) = xorBits a c ++ xorBits b d := by
  simp [xorBits, List.zipWith_append h]

theorem xorFront_zeros (k : BitSeq) (m : Nat) (h : k.length ≤ m) :
    xorFront k (zeros m) = k ++ zeros (m - k.length) := by
  induction k generalizing m with
  | nil => rfl
  | cons kj k ih =>
    cases m with
    | zero => simp at h
    | succ m => simp at h; simp [zeros_succ, xorFront, ih m h]

theorem xorFront_xorBits (k a b : BitSeq) (h : a.length = b.length) :
    xorBits (xorFront k a) b = xorFront k (xorBits a b) := by
  induction k generalizing a b with
  | nil => rfl
  | cons kj k ih =>
    cases a with
    | nil => simp [xorBits]
    | cons x a =>
      cases b with
      | nil => simp at h
      | cons y b =>
        have htail := ih a b (by simpa using h)
        simp [xorBits] at htail
        cases x <;> cases y <;> cases kj <;> simp [xorBits, xorFront, htail]

@[simp] theorem xorFront_self (k b : BitSeq) : xorFront k (xorFront k b) = b := by
  induction k generalizing b with
  | nil => rfl
  | cons kj k ih => cases b <;> simp [xorFront, ih]

/-- The scan passes over leading zeros. -/
theorem scan_zeros_append (k : BitSeq) (a c : Nat) (b : BitSeq) : scan k (a + c) (zeros a ++ b) = scan k c b := by
  induction a with
  | zero => simp
  | succ a ih =>
    have h : a + 1 + c = a + c + 1 := by omega
    rw [h]
    simpa [zeros_succ, scan] using ih

theorem scan_zeros (k : BitSeq) (c m : Nat) (h : c ≤ m) : scan k c (zeros m) = zeros (m - c) := by
  have hscan := scan_zeros_append k c 0 (zeros (m - c))
  rwa [zeros_append, Nat.add_sub_cancel' h] at hscan

end Sys2Proof.Machine
end

