-- ==== Sys2Proof/Laws/Step.lean ====
section
/-! SUPPORT. What a step can do, said once. -/

namespace Sys2Proof.Machine

/-- What `exec` answers, in terms of the command's operation in this build. -/
def commandResult (c : Config) (i : Instr) (s : State) : State :=
  match i with
  | .cfgPoly a => cfgPoly c a s
  | .crcGen a => crcGen c a s
  | .crcChk a => crcChk c a s
  | .frmEnc seq data => frmEnc c seq data s
  | .frmDec a => frmDec c a s

theorem exec_eq (i : Instr) (s : State) : exec i s = .next (commandResult Config.hardware i s) := by
  cases i <;> rfl

/-- Whatever a command does: it sets POLY (CFG_POLY only, to a legal operand), appends one response and at most one record. -/
theorem commandResult_form (c : Config) (i : Instr) (s : State) :
    ∃ p r es, commandResult c i s =
        { s with poly := p, responses := s.responses ++ [r], events := s.events ++ es } ∧
      es.length ≤ 1 ∧ (p = s.poly ∨ (i = .cfgPoly p ∧ 2 ≤ p.length ∧ exceeds p.length c.polyMaxBits = false)) ∧
      (r.status ≠ .ok → p = s.poly ∧ es = [] ∧ r = { status := r.status }) := by
  have hraise (st : Status) : raise st s =
      { s with poly := s.poly, responses := s.responses ++ [{ status := st }], events := s.events ++ [] } := by
    simp [raise, respond]
  have hrespond (r : Response) : respond r s =
      { s with poly := s.poly, responses := s.responses ++ [r], events := s.events ++ [] } := by
    simp [respond]
  cases i with
  | cfgPoly a =>
    rcases cfgPoly_cases c s a with ⟨-, h⟩ | ⟨-, -, h⟩ | ⟨hfit, hlong, h⟩
    · exact ⟨_, _, _, h.trans (hraise _), by simp, .inl rfl, by simp⟩
    · exact ⟨_, _, _, h.trans (hraise _), by simp, .inl rfl, by simp⟩
    · exact ⟨a, {}, [], by simp [commandResult, h, respond, writePoly], by simp, .inr ⟨rfl, hlong, hfit⟩, by simp⟩
  | crcGen a =>
    rcases crcGen_cases c s a with ⟨-, h⟩ | ⟨-, -, h⟩ | ⟨-, -, h⟩
    · exact ⟨_, _, _, h.trans (hraise _), by simp, .inl rfl, by simp⟩
    · exact ⟨_, _, _, h.trans (hraise _), by simp, .inl rfl, by simp⟩
    · exact ⟨_, _, _, h.trans (hrespond _), by simp, .inl rfl, by simp⟩
  | crcChk a =>
    rcases crcChk_cases c s a with ⟨-, h⟩ | ⟨-, -, h⟩ | ⟨-, -, h⟩
    · exact ⟨_, _, _, h.trans (hraise _), by simp, .inl rfl, by simp⟩
    · exact ⟨_, _, _, h.trans (hraise _), by simp, .inl rfl, by simp⟩
    · exact ⟨_, _, _, h.trans (hrespond _), by simp, .inl rfl, by simp⟩
  | frmEnc seq data =>
    rcases frmEnc_cases c s seq data with ⟨-, h⟩ | ⟨-, -, h⟩
    · exact ⟨_, _, _, h.trans (hraise _), by simp, .inl rfl, by simp⟩
    · exact ⟨_, _, [_], h, by simp, .inl rfl, by simp⟩
  | frmDec a =>
    rcases frmDec_cases c s a with ⟨-, h⟩ | ⟨-, -, h⟩ | ⟨-, -, -, h⟩ | ⟨-, -, -, -, h⟩ | ⟨-, -, -, -, h⟩
    · exact ⟨_, _, _, h.trans (hraise _), by simp, .inl rfl, by simp⟩
    · exact ⟨_, _, [_], h, by simp, .inl rfl, by simp⟩
    · exact ⟨_, _, [_], h, by simp, .inl rfl, by simp⟩
    · exact ⟨_, _, [_], h, by simp, .inl rfl, by simp⟩
    · exact ⟨_, _, _, h.trans (hrespond _), by simp, .inl rfl, by simp⟩

/-- A step ends in one of four ways: idle, a reset, an illegal command word, a command. -/
theorem step_cases (s : State) :
    (s.inputs = [] ∧ step s = .next s) ∨
    (∃ rest, s.inputs = .reset :: rest ∧ step s = .next (resetAction Config.hardware { s with inputs := rest })) ∨
    (∃ r rest e, s.inputs = .command r :: rest ∧ decode r = .error e ∧
      step s = .next (raise .illegalCommand { s with inputs := rest })) ∨
    (∃ r rest i, s.inputs = .command r :: rest ∧ decode r = .ok i ∧
      step s = .next (commandResult Config.hardware i { s with inputs := rest })) := by
  unfold step
  split
  · exact .inl ⟨‹_›, rfl⟩
  · exact .inr (.inl ⟨_, ‹_›, rfl⟩)
  · split
    · exact .inr (.inr (.inl ⟨_, _, _, ‹_›, ‹_›, rfl⟩))
    · exact .inr (.inr (.inr ⟨_, _, _, ‹_›, ‹_›, exec_eq _ _⟩))

end Sys2Proof.Machine
end

