-- ==== Sys2Proof/Tests/Slice0.lean ====
section
/-! SUPPORT. Tests. Every expected value is from spec/: the opcode map, the rules' own examples, or the tables of
95_test_vectors.md, named in the comments. `fits_*` and `meets_*` theorems show, for each statement with hypotheses, a
concrete state and operands that meet them. -/

namespace Sys2Proof.Tests

open Sys2Proof.Machine

/-- A bit literal of width `w`, read by core's own bit access, not by the model's `bin`. -/
def lit (w v : Nat) : BitSeq := (List.range w).map fun i => (BitVec.ofNat w v).getMsbD i

/-- A codec that holds `k`, with nothing asked or answered. -/
def holding (k : BitSeq) : State := { poly := k, inputs := [], responses := [], events := [] }

def k1011 : BitSeq := [true, false, true, true]

/-- 95_test_vectors.md sections 2.1 to 2.6: unbounded parameters. -/
def unbounded : Config :=
  { w := 2, polyReset := k1011, polyMaxBits := none, frameMaxBits := none, dataMaxOctets := none }

/-- 95_test_vectors.md section 2.7: finite parameters. -/
def limited : Config :=
  { w := 2, polyReset := k1011, polyMaxBits := some 8, frameMaxBits := some 16, dataMaxOctets := some 2 }

theorem limited_legal : LegalBuild limited where
  w_pos := by decide
  poly_four := by decide
  frame_shortest n hn h := by
    have h8 : n ≤ 8 := by simpa [limited, exceeds] using h
    exact exceeds_mono (b := 9) (by simp [limited]; omega) (by decide)
  reset_long := by decide
  reset_fits := by decide

theorem k1011_legal_limited : LegalPoly limited k1011 := by unfold LegalPoly; decide

theorem k1011_legal : LegalPoly Config.hardware k1011 := ⟨by decide, hardware_admits_four⟩

/-! ## Well-formedness refuses -/

theorem test_wf_refuses_long_polynomial : (Instr.cfgPoly (zeros 17)).wellFormed limited = false := by decide
theorem test_wf_refuses_long_message : (Instr.crcGen (zeros 17)).wellFormed limited = false := by decide
theorem test_wf_refuses_long_codeword : (Instr.crcChk (zeros 17)).wellFormed limited = false := by decide
theorem test_wf_refuses_long_data : (Instr.frmEnc 0 [1, 2, 3]).wellFormed limited = false := by decide
theorem test_wf_refuses_long_frame : (Instr.frmDec (zeros 17)).wellFormed limited = false := by decide
theorem test_wf_admits_limits :
    (Instr.frmDec (zeros 16)).wellFormed limited = true ∧ (Instr.frmEnc 0 [1, 2]).wellFormed limited = true := by decide

/-! ## Decoding: words written out from 30_encoding.md R61, R62 (RSV, then OP) -/

theorem test_decode_cfgPoly :
    decode { cmd := 0b0000_0001, a := k1011, s := 9, d := [7] } = .ok (.cfgPoly k1011) := by
  simp [decode, rsvField, opField]
theorem test_decode_crcGen :
    decode { cmd := 0b0000_0010, a := k1011, s := 9, d := [7] } = .ok (.crcGen k1011) := by
  simp [decode, rsvField, opField]
theorem test_decode_crcChk :
    decode { cmd := 0b0000_0011, a := k1011, s := 9, d := [7] } = .ok (.crcChk k1011) := by
  simp [decode, rsvField, opField]
theorem test_decode_frmEnc :
    decode { cmd := 0b0000_0100, a := k1011, s := 9, d := [7] } = .ok (.frmEnc 9 [7]) := by
  simp [decode, rsvField, opField]
theorem test_decode_frmDec :
    decode { cmd := 0b0000_0101, a := k1011, s := 9, d := [7] } = .ok (.frmDec k1011) := by
  simp [decode, rsvField, opField]
/-- 95_test_vectors.md section 2.8. -/
theorem test_decode_illegal :
    decode { cmd := 0x00 } = .error .reservedOpcode ∧ decode { cmd := 0x06 } = .error .reservedOpcode ∧
    decode { cmd := 0x0F } = .error .reservedOpcode ∧ decode { cmd := 0x11, a := k1011 } = .error .reservedField ∧
    decode { cmd := 0x85 } = .error .reservedField ∧ decode { cmd := 0xFF } = .error .reservedField := by
  simp [decode, rsvField, opField]

/-! ## Vectors: at most two a command, each one step -/

/-- 40_configuration.md R80's example, first line. -/
theorem test_cfgPoly_loads :
    cfgPoly unbounded [true, true, false, true] (holding k1011) =
      { holding [true, true, false, true] with responses := [{}] } := by decide
/-- 95_test_vectors.md section 2.7, first two rows: nine bits refused, eight loaded. -/
theorem test_cfgPoly_limit :
    (cfgPoly limited (lit 9 0b101101011) (holding k1011)).responses = [{ status := .lengthLimit }] ∧
    (cfgPoly limited (lit 9 0b101101011) (holding k1011)).poly = k1011 ∧
    (cfgPoly limited (lit 8 0b10110101) (holding k1011)).poly = lit 8 0b10110101 := by decide
/-- 95_test_vectors.md section 2.2, the textbook check value. -/
theorem test_crcGen_check_value :
    (crcGen unbounded (lit 14 0b11010011101100) (holding k1011)).responses = [{ bits := lit 3 0b100 }] := by decide
/-- 95_test_vectors.md section 2.2, under a 5-bit polynomial. -/
theorem test_crcGen_five_bits :
    (crcGen unbounded (lit 10 0b0001001000) (holding (lit 5 0b10011))).responses = [{ bits := lit 4 0b1100 }] := by
  decide
/-- 95_test_vectors.md section 2.3. -/
theorem test_crcChk_accepts :
    (crcChk unbounded (lit 7 0b1101001) (holding k1011)).responses = [{ ok := true }] ∧
    (crcChk unbounded (lit 7 0b1101011) (holding k1011)).responses = [{ ok := false }] := by decide
theorem test_crcChk_short :
    (crcChk unbounded (lit 3 0b101) (holding k1011)).responses = [{ status := .invalidConfiguration }] := by decide
/-- 95_test_vectors.md section 2.4: `S = 6, D = [0x48]`; the record of section 3, P4 step 3. -/
theorem test_frmEnc_wraps :
    frmEnc unbounded 6 [0x48] (holding k1011) =
      { holding k1011 with
        responses := [{ bits := lit 13 0b1001001000110 }]
        events := [.framed (lit 8 0b01001000) (lit 3 0b110) (lit 13 0b1001001000110)] } := by decide
/-- 95_test_vectors.md section 2.4: two octets. -/
theorem test_frmEnc_two_octets :
    (frmEnc unbounded 4 [0x48, 0x69] (holding k1011)).responses = [{ bits := lit 21 0b000100100001101001010 }] := by
  decide
/-- 95_test_vectors.md section 2.5, rows 3 and 18 (the undetected error). -/
theorem test_frmDec_ok :
    (frmDec unbounded (lit 21 0b000100100001101001010) (holding k1011)).responses =
      [{ outcome := .decOk, seq := 0, data := [0x48, 0x69] }] ∧
    (frmDec unbounded (lit 13 0b1010001000001) (holding k1011)).responses =
      [{ outcome := .decOk, seq := 2, data := [0x88] }] := by decide
/-- 95_test_vectors.md section 2.5: the order of the steps. -/
theorem test_frmDec_order :
    (frmDec unbounded (lit 14 0b00010010000011) (holding k1011)).events = [.crcFail (lit 14 0b00010010000011)] ∧
    (frmDec unbounded (lit 8 0b00101100) (holding k1011)).events = [.malformedFrame (lit 8 0b00101100)] ∧
    (frmDec unbounded (lit 4 0) (holding k1011)).responses = [{ outcome := .malformed }] := by decide
/-- 95_test_vectors.md section 2.9, the fourth trace: the buffers of `Divide(1101000, 1011)`. -/
theorem test_divide_trace :
    divideLoop k1011 1 0 (lit 7 0b1101000) = lit 7 0b0110000 ∧
    divideLoop k1011 2 0 (lit 7 0b1101000) = lit 7 0b0011100 ∧
    divideLoop k1011 3 0 (lit 7 0b1101000) = lit 7 0b0001010 ∧
    divideLoop k1011 4 0 (lit 7 0b1101000) = lit 7 0b0000001 := by decide
/-- 00_scope.md R8's examples. -/
theorem test_bin : bin 2 5 = lit 2 0b01 ∧ bin 8 0x48 = lit 8 0b01001000 := by decide

/-! ## The host's fetch: every row of opcode_table.json runs as the first instruction after reset -/

theorem test_fetch_runs_the_table :
    (∀ w ∈ [1, 2, 3, 4, 5], (decodeTableWord 8 w).isSome = true) ∧
    step (State.reset.withFetchWord 8 1) = exec (.cfgPoly []) State.reset ∧
    step (State.reset.withFetchWord 8 2) = exec (.crcGen []) State.reset ∧
    step (State.reset.withFetchWord 8 3) = exec (.crcChk []) State.reset ∧
    step (State.reset.withFetchWord 8 4) = exec (.frmEnc 0 []) State.reset ∧
    step (State.reset.withFetchWord 8 5) = exec (.frmDec []) State.reset := by
  refine ⟨by decide, ?_, ?_, ?_, ?_, ?_⟩ <;>
    simp [step, State.withFetchWord, tableRequest, decode, rsvField, opField]

/-! ## What this hardware admits -/

theorem fits_poly (k : BitSeq) (h : k.length ≤ 4) : exceeds k.length Config.hardware.polyMaxBits = false :=
  exceeds_mono h hardware_admits_four

theorem fits_frame (len : Nat) (h : len ≤ 5) : exceeds len Config.hardware.frameMaxBits = false :=
  exceeds_mono h hardware_admits_five_bits

theorem fits_no_data : exceeds ([] : List Octet).length Config.hardware.dataMaxOctets = false :=
  hardware_admits_no_data

/-! ## Witnesses: states and operands that meet the hypotheses of the statements -/

/-- CommandWordSelectsExactlyOneCommand: one request a clause, both ends of the illegal ranges. -/
theorem meets_CommandWordSelectsExactlyOneCommand :
    ({ cmd := 0x01 } : Request).cmd.toNat = 0x01 ∧ ({ cmd := 0x02 } : Request).cmd.toNat = 0x02 ∧
    ({ cmd := 0x03 } : Request).cmd.toNat = 0x03 ∧ ({ cmd := 0x04 } : Request).cmd.toNat = 0x04 ∧
    ({ cmd := 0x05 } : Request).cmd.toNat = 0x05 ∧ ({ cmd := 0x00 } : Request).cmd.toNat = 0 ∧
    5 < ({ cmd := 0x06 } : Request).cmd.toNat ∧ 5 < ({ cmd := 0xFF } : Request).cmd.toNat := by decide

/-- IgnoredOperandsNeverMatter: a CRC_CHK, a FRM_ENC and an illegal word, each with other ignored operands. -/
theorem meets_IgnoredOperandsNeverMatter :
    (∀ p ∈ [(({ cmd := 0x03, a := k1011, s := 7, d := [1] } : Request), ({ cmd := 0x03, a := k1011 } : Request)),
        ({ cmd := 0x04, a := k1011, s := 7, d := [1] }, { cmd := 0x04, s := 7, d := [1] }),
        ({ cmd := 0x06, a := k1011, s := 7, d := [1] }, { cmd := 0x06 })],
      p.1 ≠ p.2 ∧ p.1.cmd = p.2.cmd ∧
      (p.1.cmd.toNat ∈ [0x01, 0x02, 0x03, 0x05] → p.1.a = p.2.a) ∧
      (p.1.cmd.toNat = 0x04 → p.1.s = p.2.s ∧ p.1.d = p.2.d)) := by decide

/-- HostResetSetsPolyAndNothingElse, IdleStepKeepsTheState, StepRunsTheDecodedCommand, IllegalCommandWordIsAnswered. -/
theorem meets_step_statements :
    ({ holding k1011 with inputs := [.reset] }).inputs = .reset :: [] ∧ (holding k1011).inputs = [] ∧
    ({ holding k1011 with inputs := [.command { cmd := 0x02, a := [true] }] }).inputs =
      .command { cmd := 0x02, a := [true] } :: [] ∧
    decode { cmd := 0x02, a := [true] } = .ok (.crcGen [true]) ∧
    (∀ w ∈ [(0x11 : CmdWord), 0x00, 0x06, 0x0F, 0xF1],
      w.toNat / 16 ≠ 0 ∨ w.toNat % 16 = 0 ∨ 6 ≤ w.toNat % 16) := by
  refine ⟨rfl, rfl, rfl, by simp [decode, rsvField, opField], by decide⟩

/-- AnErrorWritesNoStateAndEmitsNothing: an illegal word. -/
theorem meets_AnErrorWritesNoStateAndEmitsNothing :
    ∃ (s t : State) (r : Response), step s = .next t ∧ t.responses = s.responses ++ [r] ∧ r.status ≠ .ok :=
  ⟨{ holding k1011 with inputs := [.command { cmd := 0x00 }] },
    raise .illegalCommand (holding k1011), { status := .illegalCommand },
    by simp [step, decode, rsvField, opField, illegalCommand, holding], rfl, by decide⟩

/-- OnlyCfgPolyAndResetWritePoly: a reset and a CFG_POLY that change POLY. -/
theorem meets_OnlyCfgPolyAndResetWritePoly :
    (∃ s t : State, s.inputs = [.reset] ∧ step s = .next t ∧ t.poly ≠ s.poly) ∧
    (∃ s t : State, s.inputs = [.command { cmd := 0x01, a := [true, true] }] ∧ step s = .next t ∧ t.poly ≠ s.poly) := by
  refine ⟨⟨{ holding [true, true] with inputs := [.reset] }, _, rfl, rfl, by decide⟩,
    ⟨{ holding k1011 with inputs := [.command { cmd := 0x01, a := [true, true] }] },
      respond {} (writePoly [true, true] (holding k1011)), rfl, ?_, by decide⟩⟩
  have h := fits_poly [true, true] (by decide)
  simp at h
  simp [step, decode, rsvField, opField, exec_eq, commandResult, cfgPoly, h, holding]

/-- CommandsReadOnlyPolyAndTheirOperands: a command that is not CFG_POLY, of each kind named. -/
theorem meets_CommandsReadOnlyPolyAndTheirOperands :
    (∀ a, Instr.crcGen [true] ≠ .cfgPoly a) ∧ (∀ a, Instr.frmEnc 0 [] ≠ .cfgPoly a) ∧
    (∃ a, Instr.crcGen [true] = .crcGen a ∨ Instr.crcGen [true] = .crcChk a) ∧ (holding k1011).poly = k1011 :=
  ⟨by simp, by simp, ⟨[true], .inl rfl⟩, rfl⟩

/-- CfgPolyIsInForceForTheNextCommand: CFG_POLY and then CRC_GEN. -/
theorem meets_CfgPolyIsInForceForTheNextCommand :
    decode { cmd := 0x01, a := [true, true] } = .ok (.cfgPoly [true, true]) ∧
    decode { cmd := 0x02, a := [true] } = .ok (.crcGen [true]) ∧ 2 ≤ ([true, true] : BitSeq).length ∧
    exceeds ([true, true] : BitSeq).length Config.hardware.polyMaxBits = false :=
  ⟨by simp [decode, rsvField, opField], by simp [decode, rsvField, opField], by decide, fits_poly _ (by decide)⟩

/-- CfgPolyLoadsExactlyTheLegalPolynomials: each clause at both ends of its range, in the build `limited`. -/
theorem meets_CfgPolyLoadsExactlyTheLegalPolynomials :
    LegalBuild limited ∧ exceeds (zeros 9).length limited.polyMaxBits = true ∧ (zeros 0).length ≤ 1 ∧
    (zeros 1).length ≤ 1 ∧ 2 ≤ (zeros 2).length ∧ exceeds (zeros 2).length limited.polyMaxBits = false ∧
    exceeds (zeros 8).length limited.polyMaxBits = false := ⟨limited_legal, by decide⟩

/-- CrcGenReturnsTheRemainder: 14 bits exceed, 13 fit; an empty message; the corner cases' polynomials. -/
theorem meets_CrcGenReturnsTheRemainder :
    exceeds ((zeros 14).length + ((holding k1011).poly.length - 1)) limited.frameMaxBits = true ∧
    exceeds (([] : BitSeq).length + ((holding k1011).poly.length - 1)) limited.frameMaxBits = false ∧
    exceeds ((zeros 13).length + ((holding k1011).poly.length - 1)) limited.frameMaxBits = false ∧ zeros 13 ≠ [] ∧
    zeros 13 = zeros (zeros 13).length ∧
    exceeds (([true] : BitSeq).length + ((holding k1011).poly.length - 1)) limited.frameMaxBits = false ∧
    ([true] : BitSeq) ≠ [] ∧ (holding k1011).poly = [true, false, true, true] ∧
    exceeds (([true] : BitSeq).length + ((holding [true, true]).poly.length - 1)) limited.frameMaxBits = false ∧
    (holding [true, true]).poly = [true, true] ∧
    exceeds (([true] : BitSeq).length + ((holding [false, false]).poly.length - 1)) limited.frameMaxBits = false ∧
    (holding [false, false]).poly = [false, false] := by decide

/-- CrcChkTestsTheRemainder: 17 bits exceed, 16 fit; 3 bits are short, 4 are not; a polynomial of zeros. -/
theorem meets_CrcChkTestsTheRemainder :
    exceeds (zeros 17).length limited.frameMaxBits = true ∧ exceeds (zeros 16).length limited.frameMaxBits = false ∧
    exceeds (zeros 3).length limited.frameMaxBits = false ∧ (zeros 3).length < (holding k1011).poly.length ∧
    2 ≤ (holding k1011).poly.length ∧ (holding k1011).poly.length ≤ (zeros 4).length ∧
    exceeds (zeros 4).length limited.frameMaxBits = false ∧ zeros 4 = zeros (zeros 4).length ∧
    (holding [true, false]).poly.drop 1 = zeros ((holding [true, false]).poly.length - 1) ∧
    (holding [true, false]).poly.length ≤ (zeros 2).length := by decide

/-- FrmEncPacksTheFrame: three octets exceed, two exceed the frame, one and none fit. -/
theorem meets_FrmEncPacksTheFrame :
    LegalBuild limited ∧ LegalPoly limited (holding k1011).poly ∧
    exceeds ([1, 2, 3] : List Octet).length limited.dataMaxOctets = true ∧
    exceeds ([1, 2] : List Octet).length limited.dataMaxOctets = false ∧
    exceeds (limited.w + 8 * ([1, 2] : List Octet).length + ((holding k1011).poly.length - 1))
      limited.frameMaxBits = true ∧
    exceeds ([1] : List Octet).length limited.dataMaxOctets = false ∧
    exceeds (limited.w + 8 * ([1] : List Octet).length + ((holding k1011).poly.length - 1))
      limited.frameMaxBits = false ∧
    exceeds (limited.w + 8 * ([] : List Octet).length + ((holding k1011).poly.length - 1))
      limited.frameMaxBits = false := ⟨limited_legal, k1011_legal_limited, by decide⟩

/-- FrmDecChecksInTheNumberedOrder: one frame a clause, at the boundary lengths 17, 16, 4 and 5. -/
theorem meets_FrmDecChecksInTheNumberedOrder :
    LegalBuild limited ∧ LegalPoly limited (holding k1011).poly ∧
    exceeds (zeros 17).length limited.frameMaxBits = true ∧
    exceeds (zeros 4).length limited.frameMaxBits = false ∧
    (zeros 4).length < limited.w + ((holding k1011).poly.length - 1) ∧
    limited.w + ((holding k1011).poly.length - 1) ≤ (lit 5 0b00001).length ∧
    divide (lit 5 0b00001) k1011 ≠ zeros 3 ∧
    (zeros 16).length = limited.w + 11 + ((holding k1011).poly.length - 1) ∧ divide (zeros 16) k1011 = zeros 3 ∧
    11 % 8 ≠ 0 ∧
    exceeds (zeros 16).length limited.frameMaxBits = false ∧
    (lit 5 0b01011).length = limited.w + 0 + ((holding k1011).poly.length - 1) ∧
    divide (lit 5 0b01011) k1011 = zeros 3 ∧
    (zeros 13).length = limited.w + 8 + ((holding k1011).poly.length - 1) ∧ zeros 13 = zeros (zeros 13).length :=
  ⟨limited_legal, k1011_legal_limited, by decide⟩

/-- OverlongOperandsGetLengthLimit. -/
theorem meets_OverlongOperandsGetLengthLimit :
    LegalBuild limited ∧ exceeds (zeros 17).length limited.frameMaxBits = true ∧
    exceeds ([1, 2, 3] : List Octet).length limited.dataMaxOctets = true := ⟨limited_legal, by decide⟩

/-- CfgPolyCompletes, at both ends of what every build admits. -/
theorem meets_CfgPolyCompletes :
    2 ≤ ([false, false] : BitSeq).length ∧
    exceeds ([false, false] : BitSeq).length Config.hardware.polyMaxBits = false ∧
    2 ≤ k1011.length ∧ exceeds k1011.length Config.hardware.polyMaxBits = false :=
  ⟨by decide, fits_poly _ (by decide), by decide, fits_poly _ (by decide)⟩

/-- CrcGenCompletes. -/
theorem meets_CrcGenCompletes :
    ([true] : BitSeq) ≠ [] ∧
    exceeds (([true] : BitSeq).length + ((holding k1011).poly.length - 1)) Config.hardware.frameMaxBits = false :=
  ⟨by decide, fits_frame _ (by decide)⟩

/-- CrcChkCompletes: the shortest codeword. -/
theorem meets_CrcChkCompletes :
    (holding k1011).poly.length ≤ k1011.length ∧ exceeds k1011.length Config.hardware.frameMaxBits = false :=
  ⟨by decide, fits_frame _ (by decide)⟩

/-- EveryEncodedFrameIsWellFormed: an empty data unit. -/
theorem meets_EveryEncodedFrameIsWellFormed :
    exceeds ([] : List Octet).length Config.hardware.dataMaxOctets = false ∧
    exceeds (2 + 8 * ([] : List Octet).length + ((holding k1011).poly.length - 1)) Config.hardware.frameMaxBits =
      false := ⟨fits_no_data, fits_frame _ (by decide)⟩

/-- FrmDecCompletes: the frame of `S = 1, D = []` (95_test_vectors.md section 2.4), that frame with its last bit flipped,
four bits under `b"11"` that verify with one payload bit, and four bits under `b"1011"`. -/
theorem meets_FrmDecCompletes :
    exceeds (lit 5 0b01011).length Config.hardware.frameMaxBits = false ∧
    2 + ((holding k1011).poly.length - 1) ≤ (lit 5 0b01011).length ∧ divide (lit 5 0b01011) k1011 = zeros 3 ∧
    ((lit 5 0b01011).length - 2 - ((holding k1011).poly.length - 1)) % 8 = 0 ∧
    exceeds (lit 5 0b01010).length Config.hardware.frameMaxBits = false ∧
    divide (lit 5 0b01010) k1011 ≠ zeros 3 ∧
    exceeds (zeros 4).length Config.hardware.frameMaxBits = false ∧
    2 + ((holding [true, true]).poly.length - 1) ≤ (zeros 4).length ∧ divide (zeros 4) [true, true] = zeros 1 ∧
    ((zeros 4).length - 2 - ((holding [true, true]).poly.length - 1)) % 8 ≠ 0 ∧
    (zeros 4).length < 2 + ((holding k1011).poly.length - 1) :=
  ⟨fits_frame _ (by decide), by decide, by decide, by decide, fits_frame _ (by decide), by decide,
    fits_frame _ (by decide), by decide, by decide, by decide, by decide⟩

/-- OnlyDecOkGivesFieldsOut: each outcome is reached. -/
theorem meets_OnlyDecOkGivesFieldsOut :
    ∀ o ∈ [DecOutcome.malformed, .corrupted, .decOk], ∃ (t : State) (f : BitSeq) (r : Response),
      exec (.frmDec f) (holding k1011) = .next t ∧ t.responses = (holding k1011).responses ++ [r] ∧ r.outcome = o := by
  have h4 := fits_frame 4 (by decide)
  have h5 := fits_frame 5 (by decide)
  have hbad : verifies (lit 5 0b01010) k1011 = false := by decide
  have hgood : verifies (lit 5 0b01011) k1011 = true := by decide
  intro o ho
  simp only [List.mem_cons, List.not_mem_nil, or_false] at ho
  rcases ho with rfl | rfl | rfl
  · exact ⟨_, zeros 4, { outcome := .malformed },
      by simp [exec_eq, commandResult, frmDec, h4, holding, k1011]; rfl, rfl, rfl⟩
  · exact ⟨_, lit 5 0b01010, { outcome := .corrupted },
      by simp only [exec_eq, commandResult, frmDec, holding, hbad]; simp [lit, h5, k1011]; rfl, rfl, rfl⟩
  · exact ⟨_, lit 5 0b01011, { outcome := .decOk, seq := val (slice (lit 5 0b01011) 0 2), data := [] },
      by simp only [exec_eq, commandResult, frmDec, holding, hgood]; simp [lit, h5, k1011, octetsFrom]; rfl, rfl, rfl⟩

/-- BinWritesMostSignificantBitFirst, PayloadKeepsOctetOrder: an index and an octet. -/
theorem meets_bits_statements : 7 < 8 ∧ ([0x48, 0x69] : List Octet)[1]? = some 0x69 := by decide

/-- FirstPolynomialBitNeverAffectsTheResult: `b"1011"` and `b"0011"`, at the shortest buffer. -/
theorem meets_FirstPolynomialBitNeverAffectsTheResult :
    2 ≤ k1011.length ∧ k1011.length ≤ (lit 4 0b1101).length ∧ (lit 4 0b0011).length = k1011.length ∧
    k1011.drop 1 = (lit 4 0b0011).drop 1 := by decide

/-- DivisionIsLinear, with the premises of (a) and of (b). -/
theorem meets_DivisionIsLinear :
    (lit 5 0b00011).length = (lit 5 0b10110).length ∧ 2 ≤ k1011.length ∧ k1011.length ≤ (lit 5 0b00011).length ∧
    slice (lit 5 0b00011) 0 ((lit 5 0b00011).length - k1011.length + 1) =
      zeros ((lit 5 0b00011).length - k1011.length + 1) ∧
    ([true, false] : BitSeq).drop 1 = zeros (([true, false] : BitSeq).length - 1) := by decide

/-- ChecksumRoundTrip: a one-bit message. -/
theorem meets_ChecksumRoundTrip :
    LegalPoly Config.hardware (holding k1011).poly ∧ 1 ≤ ([true] : BitSeq).length ∧
    exceeds (([true] : BitSeq).length + ((holding k1011).poly.length - 1)) Config.hardware.frameMaxBits = false :=
  ⟨k1011_legal, by decide, fits_frame _ (by decide)⟩

/-- ErrorDetectionIsLinear. -/
theorem meets_ErrorDetectionIsLinear :
    2 ≤ k1011.length ∧ k1011.length ≤ k1011.length ∧ (zeros 4).length = k1011.length ∧
    divide k1011 k1011 = zeros (k1011.length - 1) ∧ 4 ≤ k1011.length ∧ verifies k1011 k1011 = true := by decide

/-- SingleBitFlipsAreDetected: first and last bit of the shortest codeword; a polynomial that misses the flip. -/
theorem meets_SingleBitFlipsAreDetected :
    (holding k1011).poly = [true, false, true, true] ∧ 4 ≤ k1011.length ∧
    exceeds k1011.length Config.hardware.frameMaxBits = false ∧ verifies k1011 (holding k1011).poly = true ∧
    0 < k1011.length ∧ 3 < k1011.length ∧ k1011.drop 1 ≠ zeros (k1011.length - 1) ∧
    verifies [true, false] [true, false] = true ∧ 0 < ([true, false] : BitSeq).length - 1 ∧
    ([true, false] : BitSeq).drop 1 = zeros 1 :=
  ⟨rfl, by decide, fits_frame _ (by decide), by decide⟩

/-- FrameRoundTrip, SingleBitFlipNeverDecodes: an empty data unit, its first and last frame bit. -/
theorem meets_frame_statements :
    LegalPoly Config.hardware (holding k1011).poly ∧ (holding k1011).poly = [true, false, true, true] ∧
    exceeds ([] : List Octet).length Config.hardware.dataMaxOctets = false ∧
    exceeds (Config.hardware.w + 8 * ([] : List Octet).length + ((holding k1011).poly.length - 1))
      Config.hardware.frameMaxBits = false ∧
    exceeds (2 + 8 * ([] : List Octet).length + 3) Config.hardware.frameMaxBits = false ∧
    0 < 2 + 8 * ([] : List Octet).length + 3 ∧ 4 < 2 + 8 * ([] : List Octet).length + 3 :=
  ⟨k1011_legal, rfl, fits_no_data, fits_frame _ (by decide), fits_frame _ (by decide), by decide, by decide⟩

/-- EveryStepKeepsTheInvariant: a state with a response and a record in it, and a step that adds one of each. -/
theorem meets_EveryStepKeepsTheInvariant :
    ∃ s t : State, State.Inv Config.hardware s ∧ s.responses ≠ [] ∧ s.events ≠ [] ∧
      s.inputs = [.command { cmd := 0x05, a := [] }] ∧ step s = .next t := by
  have h0 := fits_frame 0 (by decide)
  refine ⟨⟨k1011, [.command { cmd := 0x05, a := [] }], [{ outcome := .malformed }], [.malformedFrame []]⟩,
    commandResult Config.hardware (.frmDec []) ⟨k1011, [], [{ outcome := .malformed }], [.malformedFrame []]⟩,
    ⟨k1011_legal, ?_, ?_⟩, by simp, by simp, rfl,
    by simp [step, decode, rsvField, opField, exec_eq]⟩
  · intro r hr
    simp only [List.mem_singleton] at hr
    subst hr
    exact ⟨by simp, by simp, by simp, h0⟩
  · intro e he
    simp only [List.mem_singleton] at he
    subst he
    exact ⟨k1011, k1011_legal, h0, .inl (by decide)⟩

end Sys2Proof.Tests
end

section
/-! PROOFS. Bits and numbers: what `bin` writes and what `val` reads (00_scope.md R8); and this hardware's parameters (R5). -/

namespace Sys2Proof.Machine

/-- `bin_k(v)` puts bit `k - 1 - i` of `v` at index `i`. -/
theorem bin_getElem? (k v i : Nat) (hi : i < k) : (bin k v)[i]? = some (v.testBit (k - 1 - i)) := by
  induction k generalizing i with
  | zero => omega
  | succ k ih =>
    cases i with
    | zero => simp [bin]
    | succ i =>
      have hbit : k - 1 - i = k + 1 - 1 - (i + 1) := by omega
      simpa [bin, hbit] using ih i (by omega)

/-- `val` reads back what `bin_k` wrote. -/
@[simp] theorem val_bin (k v : Nat) : val (bin k v) = v % 2 ^ k := by
  induction k with
  | zero => simp [bin, val, Nat.mod_one]
  | succ k ih =>
    calc val (bin (k + 1) v)
        = (v.testBit k).toNat * 2 ^ k + v % 2 ^ k := by simp [bin, val, ih]
      _ = v % 2 ^ (k + 1) := by rw [Nat.mod_pow_succ, Nat.toNat_testBit, Nat.mul_comm, Nat.add_comm]

/-- The head of the list is the summand of index 0; the others are the summands of the tail, one index up. -/
theorem val_eq_sum (s : BitSeq) :
    val s = ∑ i ∈ Finset.range s.length, (s[i]?.getD false).toNat * 2 ^ (s.length - 1 - i) := by
  induction s with
  | nil => rfl
  | cons b s ih =>
    have hexp (i : Nat) : s.length + 1 - 1 - (i + 1) = s.length - 1 - i := by omega
    rw [val, ih, List.length_cons, Finset.sum_range_succ', Nat.add_comm]
    simp only [hexp, List.getElem?_cons_succ]
    rfl

/-- Settles O30: length, bits and value of `bin` by induction on the width, the sum by induction on the sequence. -/
theorem binWritesMostSignificantBitFirst : Obligations.BinWritesMostSignificantBitFirst := by
  refine ⟨bin_length, fun k v i hi => ?_, val_bin, val_eq_sum⟩
  rw [bin_getElem? k v i hi, Nat.testBit_eq_decide_div_mod_eq, beq_eq_decide]

/-- A length exceeds a parameter exactly when the parameter is a number below it. -/
theorem exceeds_iff (len : Nat) (lim : Limit) : exceeds len lim = true ↔ ∃ m, lim = some m ∧ m < len := by
  cases lim with
  | none => simp
  | some m => simp [exceeds_some]

/-- This hardware is a legal build for every value of its OPEN parameters (00_scope.md R5). -/
theorem hardware_legal : LegalBuild Config.hardware where
  w_pos := by simp
  poly_four := hardware_admits_four
  frame_shortest n hn h := frameLimit_admits_shortest 2 n _ _ hn h
  reset_long := by simp
  reset_fits := hardware_admits_four

/-- Settles O6: `hardware_legal`, with `W` and the meaning of `exceeds` by definition. -/
theorem hardwareParametersAreLegal : Obligations.HardwareParametersAreLegal :=
  ⟨hardware_legal, hardware_w, exceeds_iff⟩

end Sys2Proof.Machine
end

section
/-! PROOFS. The state (10_state.md): its first value, what a step appends to it, and what writes POLY. -/

namespace Sys2Proof.Machine

/-- Settles O7: every field of the first state by definition, POLY by the build's reset value. -/
theorem powerOnStateHoldsTheDefaultPolynomial : Obligations.PowerOnStateHoldsTheDefaultPolynomial := rfl

/-- Settles O13: a step is idle, a reset, an illegal command word or a command, and a command has the form that
`commandResult_form` says. -/
theorem eachStepOnlyAppends : Obligations.EachStepOnlyAppends := by
  intro s
  rcases step_cases s with ⟨hin, hstep⟩ | ⟨rest, hin, hstep⟩ | ⟨r, rest, -, hin, -, hstep⟩ |
    ⟨r, rest, i, hin, -, hstep⟩
  · exact ⟨_, [], [], hstep, by simp [hin, commandCount]⟩
  · exact ⟨_, [], [], hstep, by simp [hin, commandCount]⟩
  · exact ⟨_, [{ status := .illegalCommand }], [], hstep, by simp [hin, commandCount]⟩
  · obtain ⟨p, resp, es, hresult, hes, -⟩ := commandResult_form Config.hardware i { s with inputs := rest }
    exact ⟨_, [resp], es, hstep, by simp [hresult, hin, commandCount, hes]⟩

/-- Only the word 0x01 decodes to CFG_POLY, with the request's operand `A` (30_encoding.md R62). -/
theorem cmd_eq_one_of_decode_cfgPoly {r : Request} {k : BitSeq} (h : decode r = .ok (.cfgPoly k)) :
    r.cmd = 0x01 ∧ r.a = k := by
  unfold decode at h
  split at h
  next hrsv =>
    split at h <;> simp only [Except.ok.injEq, Instr.cfgPoly.injEq, reduceCtorEq] at h
    next hop =>
      have hcmd : r.cmd.toNat = 1 := by rw [cmd_toNat, hrsv, hop]
      exact ⟨BitVec.eq_of_toNat_eq hcmd, h⟩
  next => cases h

/-- Settles O15: of the four kinds of step only a reset and a command can change POLY, and of the commands only CFG_POLY. -/
theorem onlyCfgPolyAndResetWritePoly : Obligations.OnlyCfgPolyAndResetWritePoly := by
  intro s t hst hne
  rcases step_cases s with ⟨-, hstep⟩ | ⟨rest, hin, hstep⟩ | ⟨-, rest, -, -, -, hstep⟩ |
    ⟨r, rest, i, hin, hdec, hstep⟩
  all_goals
    rw [hstep] at hst
    cases hst
  · exact absurd rfl hne
  · exact .inl ⟨rest, hin, rfl⟩
  · exact absurd rfl hne
  · obtain ⟨p, resp, es, hresult, -, hpoly, -⟩ := commandResult_form Config.hardware i { s with inputs := rest }
    rw [hresult] at hne ⊢
    rcases hpoly with hkeep | ⟨rfl, hlong, -⟩
    · exact absurd hkeep hne
    · obtain ⟨hcmd, ha⟩ := cmd_eq_one_of_decode_cfgPoly hdec
      exact .inr ⟨r, rest, hin, hcmd, ha.symm, ha ▸ hlong⟩

end Sys2Proof.Machine
end

section
/-! PROOFS. The invariant (10_state.md R22): the operations of Ops.lean keep it when what they write is legal or well
formed; so does every command, every reset and every step. -/

namespace Sys2Proof.Machine

/-- No parameter excludes an empty sequence. -/
@[simp] theorem exceeds_zero (lim : Limit) : exceeds 0 lim = false := by cases lim <;> simp [exceeds]

section WellFormedResponses

variable (c : Config)

/-- The response of `raise` (60_exceptions.md R140). -/
theorem Response.WellFormed.of_status (st : Status) : Response.WellFormed c { status := st } :=
  ⟨by simp, by simp, by simp, by simp⟩

theorem Response.WellFormed.of_bits {bits : BitSeq} (h : exceeds bits.length c.frameMaxBits = false) :
    Response.WellFormed c { bits := bits } :=
  ⟨by simp, by simp, by simp, h⟩

theorem Response.WellFormed.of_ok (ok : Bool) : Response.WellFormed c { ok := ok } :=
  ⟨by simp, by simp, by simp, by simp⟩

theorem Response.WellFormed.of_outcome (o : DecOutcome) : Response.WellFormed c { outcome := o } :=
  ⟨by simp, by simp, by simp, by simp⟩

theorem Response.WellFormed.of_decOk {seq : Nat} (data : List Octet) (h : seq < 2 ^ c.w) :
    Response.WellFormed c { outcome := .decOk, seq := seq, data := data } :=
  ⟨h, by simp, by simp, by simp⟩

end WellFormedResponses

/-- The record of FRM_ENC (42_framer.md R110): the three parts of `frameOf`. -/
theorem Event.wellFormed_framed {c : Config} {k : BitSeq} (seq : Nat) (data : List Octet) (hk : LegalPoly c k)
    (hfit : exceeds (c.w + 8 * data.length + (k.length - 1)) c.frameMaxBits = false) :
    Event.WellFormed c
      (.framed (payload data) (checksum (seqField c.w seq ++ payload data) k) (frameOf c.w seq data k)) :=
  ⟨k, hk, by simpa using hfit, by simp, by simp, seqField c.w seq, by simp, rfl, rfl⟩

section Inv

variable {c : Config} {s : State} (h : State.Inv c s)
include h

/-- The invariant does not speak of what the host has asked for. -/
theorem State.Inv.setInputs (inputs : List HostInput) : State.Inv c { s with inputs := inputs } :=
  ⟨h.poly_legal, h.responses_ok, h.events_ok⟩

theorem State.Inv.writePoly {k : BitSeq} (hk : LegalPoly c k) : State.Inv c (writePoly k s) :=
  ⟨hk, h.responses_ok, h.events_ok⟩

theorem State.Inv.respond {r : Response} (hr : Response.WellFormed c r) : State.Inv c (respond r s) where
  poly_legal := h.poly_legal
  responses_ok := List.forall_mem_append.mpr ⟨h.responses_ok, List.forall_mem_singleton.mpr hr⟩
  events_ok := h.events_ok

theorem State.Inv.emit {e : Event} (he : Event.WellFormed c e) : State.Inv c (emit e s) where
  poly_legal := h.poly_legal
  responses_ok := h.responses_ok
  events_ok := List.forall_mem_append.mpr ⟨h.events_ok, List.forall_mem_singleton.mpr he⟩

theorem State.Inv.raise (st : Status) : State.Inv c (raise st s) := h.respond (.of_status c st)

theorem State.Inv.cfgPoly (k : BitSeq) : State.Inv c (cfgPoly c k s) := by
  rcases cfgPoly_cases c s k with ⟨-, heq⟩ | ⟨-, -, heq⟩ | ⟨hfit, hlong, heq⟩ <;> rw [heq]
  · exact h.raise _
  · exact h.raise _
  · exact (h.writePoly ⟨hlong, hfit⟩).respond (.of_status c .ok)

theorem State.Inv.crcGen (m : BitSeq) : State.Inv c (crcGen c m s) := by
  rcases crcGen_cases c s m with ⟨-, heq⟩ | ⟨-, -, heq⟩ | ⟨hfit, -, heq⟩ <;> rw [heq]
  · exact h.raise _
  · exact h.raise _
  · exact h.respond (.of_bits c (exceeds_mono (by simp) hfit))

theorem State.Inv.crcChk (f : BitSeq) : State.Inv c (crcChk c f s) := by
  rcases crcChk_cases c s f with ⟨-, heq⟩ | ⟨-, -, heq⟩ | ⟨-, -, heq⟩ <;> rw [heq]
  · exact h.raise _
  · exact h.raise _
  · exact h.respond (.of_ok c _)

theorem State.Inv.frmEnc (seq : Nat) (data : List Octet) : State.Inv c (frmEnc c seq data s) := by
  rcases frmEnc_cases c s seq data with ⟨-, heq⟩ | ⟨-, hfit, heq⟩ <;> rw [heq]
  · exact h.raise _
  · exact (h.emit (Event.wellFormed_framed seq data h.poly_legal hfit)).respond (.of_bits c (by simpa using hfit))

theorem State.Inv.frmDec (f : BitSeq) : State.Inv c (frmDec c f s) := by
  have hpoly := h.poly_legal
  rcases frmDec_cases c s f with ⟨-, heq⟩ | ⟨hfit, hshort, heq⟩ | ⟨hfit, hlong, hver, heq⟩ |
    ⟨hfit, -, hver, hpart, heq⟩ | ⟨-, hlong, -, -, heq⟩ <;> rw [heq]
  · exact h.raise _
  · exact (h.emit (e := .malformedFrame f) ⟨s.poly, hpoly, hfit, .inl hshort⟩).respond (.of_outcome c _)
  · exact (h.emit (e := .crcFail f) ⟨s.poly, hpoly, hfit, hlong, hver⟩).respond (.of_outcome c _)
  · exact (h.emit (e := .malformedFrame f) ⟨s.poly, hpoly, hfit, .inr ⟨hver, hpart⟩⟩).respond (.of_outcome c _)
  · have hseq := val_lt (slice f 0 c.w)
    rw [slice_length f 0 c.w (by omega)] at hseq
    exact h.respond (.of_decOk c _ hseq)

/-- Every command keeps the invariant, in every build. -/
theorem State.Inv.commandResult (i : Instr) : State.Inv c (commandResult c i s) := by
  cases i with
  | cfgPoly a => exact h.cfgPoly a
  | crcGen a => exact h.crcGen a
  | crcChk a => exact h.crcChk a
  | frmEnc seq data => exact h.frmEnc seq data
  | frmDec a => exact h.frmDec a

end Inv

/-- The reset value of a legal build is a legal polynomial (00_scope.md R5). -/
theorem LegalBuild.polyReset_legal {c : Config} (h : LegalBuild c) : LegalPoly c c.polyReset :=
  ⟨h.reset_long, h.reset_fits⟩

/-- Settles O39: the reset value is legal, and no response or record stands in the first state. -/
theorem resetMeetsTheInvariant : Obligations.ResetMeetsTheInvariant where
  poly_legal := hardware_legal.polyReset_legal
  responses_ok := by simp [State.reset]
  events_ok := by simp [State.reset]

/-- Settles O40: each of the four kinds of step keeps the invariant. -/
theorem everyStepKeepsTheInvariant : Obligations.EveryStepKeepsTheInvariant := by
  intro s t hs hst
  rcases step_cases s with ⟨-, hstep⟩ | ⟨rest, -, hstep⟩ | ⟨-, rest, -, -, -, hstep⟩ | ⟨-, rest, i, -, -, hstep⟩
  all_goals
    rw [hstep] at hst
    cases hst
  · exact hs
  · exact (hs.setInputs rest).writePoly hardware_legal.polyReset_legal
  · exact (hs.setInputs rest).raise .illegalCommand
  · exact (hs.setInputs rest).commandResult i

end Sys2Proof.Machine
end

section
/-! PROOFS. Data and commands (20_memory.md): the order of the payload's octets, what a step runs, and that a command reads
POLY and its operands alone. -/

namespace Sys2Proof.Machine

theorem slice_append_left (l s : BitSeq) : slice (l ++ s) 0 l.length = l := by simp [slice]

theorem slice_append_right (l s : BitSeq) (a b : Nat) :
    slice (l ++ s) (l.length + a) (l.length + b) = slice s a b := by
  simp [slice, Nat.add_sub_add_left]

/-- Octet `j` of the data unit is the `j`-th group of eight bits of the payload (30_encoding.md R70). -/
theorem payload_slice (data : List Octet) (j : Nat) (o : Octet) (h : data[j]? = some o) :
    slice (payload data) (8 * j) (8 * j + 8) = bin 8 o.toNat := by
  induction data generalizing j with
  | nil => simp at h
  | cons d data ih =>
    cases j with
    | zero =>
      obtain rfl : d = o := by simpa using h
      simpa [payload_cons] using slice_append_left (bin 8 d.toNat) (payload data)
    | succ j =>
      calc slice (payload (d :: data)) (8 * (j + 1)) (8 * (j + 1) + 8)
          = slice (bin 8 d.toNat ++ payload data) ((bin 8 d.toNat).length + 8 * j)
              ((bin 8 d.toNat).length + (8 * j + 8)) := by rw [payload_cons, bin_length]; congr 1 <;> omega
        _ = slice (payload data) (8 * j) (8 * j + 8) := slice_append_right ..
        _ = bin 8 o.toNat := ih j (by simpa using h)

/-- Settles O31: `payload_length`, and `payload_slice` by induction on the data unit. -/
theorem payloadKeepsOctetOrder : Obligations.PayloadKeepsOctetOrder :=
  fun data => ⟨payload_length data, payload_slice data⟩

theorem step_of_command_decode {s : State} {r : Request} {rest : List HostInput} {i : Instr}
    (hin : s.inputs = .command r :: rest) (hdec : decode r = .ok i) : step s = exec i { s with inputs := rest } := by
  simp only [step, hin, hdec]

/-- Settles O9: `step` with its oldest entry and what that decodes to. -/
theorem stepRunsTheDecodedCommand : Obligations.StepRunsTheDecodedCommand :=
  fun _ _ _ _ => step_of_command_decode

/-- What `t` holds, answers and records, on top of what `s` has answered and recorded. -/
def State.append (s t : State) : State :=
  { s with poly := t.poly, responses := s.responses ++ t.responses, events := s.events ++ t.events }

/-- A codec that holds `p`, with nothing asked, answered or recorded. -/
def State.blank (p : BitSeq) : State := { poly := p, inputs := [], responses := [], events := [] }

section Append

variable (s t : State)

@[simp] theorem State.append_poly : (s.append t).poly = t.poly := rfl

@[simp] theorem State.append_blank : s.append (.blank s.poly) = s := by simp [State.append, State.blank]

@[simp] theorem writePoly_append (k : BitSeq) : writePoly k (s.append t) = s.append (writePoly k t) := rfl

@[simp] theorem respond_append (r : Response) : respond r (s.append t) = s.append (respond r t) := by
  simp [respond, State.append]

@[simp] theorem emit_append (e : Event) : emit e (s.append t) = s.append (emit e t) := by simp [emit, State.append]

@[simp] theorem raise_append (st : Status) : raise st (s.append t) = s.append (raise st t) := respond_append ..

/-- A command does not see what was answered or recorded before it: its tests read POLY and its operands, and what it writes
is appended (20_memory.md R49). -/
theorem commandResult_append (c : Config) (i : Instr) :
    commandResult c i (s.append t) = s.append (commandResult c i t) := by
  cases i with
  | cfgPoly a => simp [commandResult, cfgPoly, apply_ite s.append]
  | crcGen a => simp [commandResult, crcGen, apply_ite s.append]
  | crcChk a => simp [commandResult, crcChk, apply_ite s.append]
  | frmEnc seq data => simp [commandResult, frmEnc, apply_ite s.append]
  | frmDec a => simp [commandResult, frmDec, apply_ite s.append]

/-- What a command does in `s` is what it does in the blank state that holds the same POLY. -/
theorem commandResult_eq_append_blank (c : Config) (i : Instr) :
    commandResult c i s = s.append (commandResult c i (.blank s.poly)) := by
  rw [← commandResult_append, State.append_blank]

end Append

/-- One response and one list of records for each POLY, whatever else the state holds (41_checksum_codec.md R99,
42_framer.md R118). -/
theorem commandResult_reads_only_poly (c : Config) (i : Instr) (p : BitSeq) (hi : ∀ a, i ≠ .cfgPoly a) :
    ∃ r es, ∀ s : State, s.poly = p →
      commandResult c i s = { s with responses := s.responses ++ [r], events := s.events ++ es } := by
  obtain ⟨q, r, es, hform, -, hq, -⟩ := commandResult_form c i (.blank p)
  obtain rfl : q = p := hq.resolve_right fun h => hi q h.1
  refine ⟨r, es, fun s hs => ?_⟩
  subst hs
  rw [commandResult_eq_append_blank, hform]
  simp [State.append, State.blank]

/-- The Checksum Codec records nothing (41_checksum_codec.md R99). -/
theorem crcGen_events (c : Config) (m : BitSeq) (s : State) : (crcGen c m s).events = s.events := by
  rcases crcGen_cases c s m with ⟨-, h⟩ | ⟨-, -, h⟩ | ⟨-, -, h⟩ <;> simp [h]

theorem crcChk_events (c : Config) (f : BitSeq) (s : State) : (crcChk c f s).events = s.events := by
  rcases crcChk_cases c s f with ⟨-, h⟩ | ⟨-, -, h⟩ | ⟨-, -, h⟩ <;> simp [h]

/-- Whether CFG_POLY refuses its operand, and with which status, is the operand's alone (40_configuration.md R80). -/
theorem cfgPoly_refuses_or_loads (c : Config) (a : BitSeq) :
    (∃ st, ∀ s, cfgPoly c a s = raise st s) ∨ ∀ s, cfgPoly c a s = respond {} (writePoly a s) := by
  by_cases hmax : exceeds a.length c.polyMaxBits = true
  · exact .inl ⟨.lengthLimit, fun s => by simp [cfgPoly, hmax]⟩
  by_cases hshort : a.length ≤ 1
  · exact .inl ⟨.invalidConfiguration, fun s => by simp [cfgPoly, hmax, hshort]⟩
  · exact .inr fun s => by simp [cfgPoly, hmax, hshort]

/-- Settles O16: the response and the records are those of the blank state; CFG_POLY either keeps POLY or sets it to its
operand, so a second CFG_POLY finds POLY as it would leave it. -/
theorem commandsReadOnlyPolyAndTheirOperands : Obligations.CommandsReadOnlyPolyAndTheirOperands := by
  refine ⟨fun i p hi => ?_, fun a => ?_⟩
  · obtain ⟨r, es, hanswer⟩ := commandResult_reads_only_poly Config.hardware i p hi
    refine ⟨r, es, fun s hs => by rw [exec_eq, hanswer s hs], ?_⟩
    have hes : (commandResult Config.hardware i (.blank p)).events = es := by
      rw [hanswer (.blank p) rfl]; rfl
    rintro ⟨a, rfl | rfl⟩
    · exact hes.symm.trans (crcGen_events ..)
    · exact hes.symm.trans (crcChk_events ..)
  · simp only [exec_eq, commandResult]
    rcases cfgPoly_refuses_or_loads Config.hardware a with ⟨st, hrefuse⟩ | hload
    · exact ⟨{ status := st }, fun s => ⟨s.poly, congrArg _ (hrefuse s), fun t _ => congrArg _ (hrefuse t)⟩⟩
    · refine ⟨{}, fun s => ⟨a, congrArg _ (hload s), ?_⟩⟩
      rintro t rfl
      exact congrArg _ (hload t)

end Sys2Proof.Machine
end

section
/-! PROOFS. Encoding (30_encoding.md): what each command word decodes to, which operands a command reads, what an illegal
word and an overlong operand get, and the code values. -/

namespace Sys2Proof

/-! ## The decoder, one command word at a time (R62) -/

section Decode

variable {r : Request}

theorem decode_of_cmd_one (h : r.cmd.toNat = 0x01) : decode r = .ok (.cfgPoly r.a) := by
  simp [decode, rsvField_toNat, opField_toNat, h]

theorem decode_of_cmd_two (h : r.cmd.toNat = 0x02) : decode r = .ok (.crcGen r.a) := by
  simp [decode, rsvField_toNat, opField_toNat, h]

theorem decode_of_cmd_three (h : r.cmd.toNat = 0x03) : decode r = .ok (.crcChk r.a) := by
  simp [decode, rsvField_toNat, opField_toNat, h]

theorem decode_of_cmd_four (h : r.cmd.toNat = 0x04) : decode r = .ok (.frmEnc r.s r.d) := by
  simp [decode, rsvField_toNat, opField_toNat, h]

theorem decode_of_cmd_five (h : r.cmd.toNat = 0x05) : decode r = .ok (.frmDec r.a) := by
  simp [decode, rsvField_toNat, opField_toNat, h]

/-- Which of its two fields makes an illegal word illegal; `RSV` is tested first (R63). -/
def rejectReason (cmd : CmdWord) : DecodeReject :=
  if (rsvField cmd).toNat = 0 then .reservedOpcode else .reservedField

theorem decode_of_illegal_cmd (h : r.cmd.toNat = 0 ∨ 5 < r.cmd.toNat) : decode r = .error (rejectReason r.cmd) := by
  have hcmd := cmd_toNat r.cmd
  unfold decode rejectReason
  split
  next hrsv =>
    rw [if_pos hrsv]
    split
    case h_6 => rfl
    all_goals omega
  next hrsv => rw [if_neg hrsv]

/-- The decoder does one of six things, and the command word alone decides which (R62, R75). -/
theorem decode_cases (r : Request) :
    (r.cmd.toNat = 0x01 ∧ decode r = .ok (.cfgPoly r.a)) ∨
    (r.cmd.toNat = 0x02 ∧ decode r = .ok (.crcGen r.a)) ∨
    (r.cmd.toNat = 0x03 ∧ decode r = .ok (.crcChk r.a)) ∨
    (r.cmd.toNat = 0x04 ∧ decode r = .ok (.frmEnc r.s r.d)) ∨
    (r.cmd.toNat = 0x05 ∧ decode r = .ok (.frmDec r.a)) ∨
    ((r.cmd.toNat = 0 ∨ 5 < r.cmd.toNat) ∧ decode r = .error (rejectReason r.cmd)) := by
  have hword : r.cmd.toNat = 1 ∨ r.cmd.toNat = 2 ∨ r.cmd.toNat = 3 ∨ r.cmd.toNat = 4 ∨ r.cmd.toNat = 5 ∨
      (r.cmd.toNat = 0 ∨ 5 < r.cmd.toNat) := by omega
  exact hword.imp (fun h => ⟨h, decode_of_cmd_one h⟩) <| .imp (fun h => ⟨h, decode_of_cmd_two h⟩) <|
    .imp (fun h => ⟨h, decode_of_cmd_three h⟩) <| .imp (fun h => ⟨h, decode_of_cmd_four h⟩) <|
    .imp (fun h => ⟨h, decode_of_cmd_five h⟩) fun h => ⟨h, decode_of_illegal_cmd h⟩

end Decode

theorem decode_encode (i : Instr) : decode (encode i) = .ok i := by
  cases i with
  | cfgPoly a => exact decode_of_cmd_one rfl
  | crcGen a => exact decode_of_cmd_two rfl
  | crcChk a => exact decode_of_cmd_three rfl
  | frmEnc seq data => exact decode_of_cmd_four rfl
  | frmDec a => exact decode_of_cmd_five rfl

/-- Settles O3: `decode_encode`; an accepted request has one of the five words, so the instruction is the one
`decode_cases` names; and a request with an instruction's word and used operands decodes to it. -/
theorem decodeAndEncodeAgree : Obligations.DecodeAndEncodeAgree := by
  refine ⟨decode_encode, fun r i => ⟨fun h => ?_, ?_⟩⟩
  · rcases decode_cases r with ⟨hcmd, hdec⟩ | ⟨hcmd, hdec⟩ | ⟨hcmd, hdec⟩ | ⟨hcmd, hdec⟩ | ⟨hcmd, hdec⟩ | ⟨-, hdec⟩
    all_goals cases hdec.symm.trans h
    all_goals exact ⟨BitVec.eq_of_toNat_eq hcmd, by simp⟩
  · rintro ⟨hcmd, hops⟩
    replace hcmd := congrArg BitVec.toNat hcmd
    cases i with
    | cfgPoly a => exact hops ▸ decode_of_cmd_one hcmd
    | crcGen a => exact hops ▸ decode_of_cmd_two hcmd
    | crcChk a => exact hops ▸ decode_of_cmd_three hcmd
    | frmEnc seq data => exact hops.1 ▸ hops.2 ▸ decode_of_cmd_four hcmd
    | frmDec a => exact hops ▸ decode_of_cmd_five hcmd

/-- Settles O1: one clause of the decoder's lemmas for each word. -/
theorem commandWordSelectsExactlyOneCommand : Obligations.CommandWordSelectsExactlyOneCommand := fun _ =>
  ⟨decode_of_cmd_one, decode_of_cmd_two, decode_of_cmd_three, decode_of_cmd_four, decode_of_cmd_five,
    fun h => ⟨_, decode_of_illegal_cmd h⟩⟩

/-- Settles O2: nine runs of the decoder. -/
theorem opcodeMapWordsDecode : Obligations.OpcodeMapWordsDecode := by
  unfold Obligations.OpcodeMapWordsDecode
  decide

/-- The decoder reads the command word and the operands that word uses, no others (R60, R63). -/
theorem decode_congr {r r' : Request} (hcmd : r.cmd = r'.cmd)
    (ha : r.cmd.toNat ∈ [0x01, 0x02, 0x03, 0x05] → r.a = r'.a)
    (hsd : r.cmd.toNat = 0x04 → r.s = r'.s ∧ r.d = r'.d) : decode r = decode r' := by
  rcases decode_cases r with ⟨h, hdec⟩ | ⟨h, hdec⟩ | ⟨h, hdec⟩ | ⟨h, hdec⟩ | ⟨h, hdec⟩ | ⟨h, hdec⟩
  · rw [hdec, decode_of_cmd_one (hcmd ▸ h), ha (by simp [h])]
  · rw [hdec, decode_of_cmd_two (hcmd ▸ h), ha (by simp [h])]
  · rw [hdec, decode_of_cmd_three (hcmd ▸ h), ha (by simp [h])]
  · obtain ⟨hs, hd⟩ := hsd h
    rw [hdec, decode_of_cmd_four (hcmd ▸ h), hs, hd]
  · rw [hdec, decode_of_cmd_five (hcmd ▸ h), ha (by simp [h])]
  · rw [hdec, decode_of_illegal_cmd (hcmd ▸ h), hcmd]

namespace Machine

/-- Settles O4: a step sees a request through the decoder only, and `decode_congr`. -/
theorem ignoredOperandsNeverMatter : Obligations.IgnoredOperandsNeverMatter := by
  intro s r r' rest hcmd ha hsd
  simp only [step, decode_congr hcmd ha hsd]

theorem step_of_illegal_cmd {s : State} {r : Request} {rest : List HostInput} (hin : s.inputs = .command r :: rest)
    (h : r.cmd.toNat = 0 ∨ 5 < r.cmd.toNat) :
    step s = .next (raise .illegalCommand { s with inputs := rest }) := by
  simp only [step, hin, decode_of_illegal_cmd h, illegalCommand]

/-- A word of the opcode table above 0x05 is illegal (R62, R63). -/
theorem decodeTableWord_eq_none {w : Nat} (h5 : 5 < w) (hw : w < 256) : decodeTableWord 8 w = none := by
  have hcmd : (tableRequest 8 w).cmd.toNat = w := by simp [tableRequest, Nat.mod_eq_of_lt hw]
  rw [decodeTableWord, decode_of_illegal_cmd (.inr (hcmd.symm ▸ h5))]
  rfl

/-- Settles O10: in each of the three cases the word is none of 1 to 5; of the words below 6 only 0 is illegal, and the
other 250 all are. -/
theorem illegalCommandWordIsAnswered : Obligations.IllegalCommandWordIsAnswered := by
  refine ⟨fun s r rest hin h => step_of_illegal_cmd hin (by omega), ?_⟩
  have hlow : (List.range 6).countP (fun w => (decodeTableWord 8 w).isNone) = 1 := by decide
  have hhigh : ((List.range 250).map (6 + ·)).countP (fun w => (decodeTableWord 8 w).isNone) = 250 := by
    simp only [List.countP_map]
    refine (List.countP_eq_length.mpr fun j hj => ?_).trans List.length_range
    have hj := List.mem_range.mp hj
    simp [decodeTableWord_eq_none (w := 6 + j) (by omega) (by omega)]
  rw [show 256 = 6 + 250 from rfl, List.range_add, List.countP_append, hlow, hhigh]

/-! ## Operands beyond their range (60_exceptions.md R141) -/

/-- What exceeds a parameter does so with more added to it. -/
theorem exceeds_of_le {a b : Nat} {m : Limit} (hab : a ≤ b) (h : exceeds a m = true) : exceeds b m = true := by
  by_contra hb
  simp [exceeds_mono hab (Bool.eq_false_of_not_eq_true hb)] at h

/-- POLY_MAX_BITS is at most FRAME_MAX_BITS: the shortest frame of a polynomial is at least as long as the polynomial
(00_scope.md R5). -/
theorem LegalBuild.exceeds_polyMaxBits {c : Config} (hc : LegalBuild c) {n : Nat}
    (h : exceeds n c.frameMaxBits = true) : exceeds n c.polyMaxBits = true := by
  cases n with
  | zero => simp at h
  | succ n =>
    by_contra hfit
    have hshortest := hc.frame_shortest (n + 1) (by omega) (Bool.eq_false_of_not_eq_true hfit)
    have hw := hc.w_pos
    simp [exceeds_mono (a := n + 1) (by omega) hshortest] at h

section LengthLimit

variable {c : Config} (s : State)

theorem cfgPoly_of_exceeds {k : BitSeq} (h : exceeds k.length c.polyMaxBits = true) :
    cfgPoly c k s = raise .lengthLimit s := if_pos h

theorem crcGen_of_exceeds {m : BitSeq} (h : exceeds (m.length + (s.poly.length - 1)) c.frameMaxBits = true) :
    crcGen c m s = raise .lengthLimit s := if_pos h

theorem crcChk_of_exceeds {f : BitSeq} (h : exceeds f.length c.frameMaxBits = true) :
    crcChk c f s = raise .lengthLimit s := if_pos h

theorem frmEnc_of_exceeds (seq : Nat) {data : List Octet} (h : exceeds data.length c.dataMaxOctets = true) :
    frmEnc c seq data s = raise .lengthLimit s := if_pos h

theorem frmDec_of_exceeds {f : BitSeq} (h : exceeds f.length c.frameMaxBits = true) :
    frmDec c f s = raise .lengthLimit s := if_pos h

end LengthLimit

/-- Settles O23: each command tests its operand's length first; CFG_POLY's limit is no larger than FRAME_MAX_BITS, and
what CRC_GEN puts in the buffer is no shorter than its operand. -/
theorem overlongOperandsGetLengthLimit : Obligations.OverlongOperandsGetLengthLimit := by
  rintro c s t hc rfl
  exact ⟨fun a ha => ⟨cfgPoly_of_exceeds s (hc.exceeds_polyMaxBits ha),
      crcGen_of_exceeds s (exceeds_of_le (Nat.le_add_right ..) ha), crcChk_of_exceeds s ha, frmDec_of_exceeds s ha⟩,
    fun seq data hd => frmEnc_of_exceeds s seq hd⟩

/-- Settles O5: the eight arms of the two code functions. -/
theorem statusAndOutcomeCodes : Obligations.StatusAndOutcomeCodes :=
  ⟨rfl, rfl, rfl, rfl, rfl, rfl, rfl, rfl⟩

end Machine

end Sys2Proof
end

section
/-! PROOFS. Configuration (40_configuration.md R80): what CFG_POLY does with an operand that fits POLY_MAX_BITS, and that
division does not read the polynomial's first bit. -/

namespace Sys2Proof.Machine

/-- POLY_MAX_BITS of a legal build admits every length up to four bits (00_scope.md R5). -/
theorem LegalBuild.admits_up_to_four {c : Config} (hc : LegalBuild c) {n : Nat} (hn : n ≤ 4) :
    exceeds n c.polyMaxBits = false := exceeds_mono hn hc.poly_four

section FittingOperand

variable {c : Config} (s : State) {k : BitSeq}

theorem cfgPoly_of_short (hfit : exceeds k.length c.polyMaxBits = false) (hshort : k.length ≤ 1) :
    cfgPoly c k s = raise .invalidConfiguration s :=
  (if_neg (by simp [hfit])).trans (if_pos hshort)

theorem cfgPoly_of_legalPoly (hk : LegalPoly c k) : cfgPoly c k s = respond {} (writePoly k s) := by
  obtain ⟨hlong, hfit⟩ := hk
  exact (if_neg (by simp [hfit])).trans (if_neg (by omega))

end FittingOperand

/-- Under the precondition of 41_checksum_codec.md R90 division reads the length of the polynomial and its bits after the
first. -/
theorem divide_congr_tail {buf k k' : BitSeq} (h1 : 1 ≤ k.length) (h2 : k.length ≤ buf.length)
    (hlen : k.length = k'.length) (htail : k.tail = k'.tail) : divide buf k = divide buf k' := by
  rw [divide_eq_scan buf k h1 h2, divide_eq_scan buf k' (hlen ▸ h1) (hlen ▸ h2), hlen, htail]

/-- Settles O18: the clauses are the branches of `cfgPoly`; a refused short operand fits, as every legal build admits four
bits; `b"0011"` and `b"1011"` differ in the first bit only. -/
theorem cfgPolyLoadsExactlyTheLegalPolynomials : Obligations.CfgPolyLoadsExactlyTheLegalPolynomials := by
  intro c s k hc
  have hshort_fits (hshort : k.length ≤ 1) : exceeds k.length c.polyMaxBits = false := hc.admits_up_to_four (by omega)
  refine ⟨rfl, ?exclusive, cfgPoly_of_exceeds s, ?short, ?legal, ?firstBit⟩
  case exclusive =>
    rintro ⟨hmax, hshort⟩
    simp [hshort_fits hshort] at hmax
  case short => exact fun hshort => cfgPoly_of_short s (hshort_fits hshort) hshort
  case legal => exact fun hlong hfit => cfgPoly_of_legalPoly s ⟨hlong, hfit⟩
  case firstBit => exact fun buf hbuf => divide_congr_tail (by simp) hbuf rfl rfl

/-- Settles O24: `exec` runs `cfgPoly` in this hardware's build, with a legal operand. -/
theorem cfgPolyCompletes : Obligations.CfgPolyCompletes :=
  fun s k hlong hfit => (exec_eq (.cfgPoly k) s).trans (congrArg _ (cfgPoly_of_legalPoly s ⟨hlong, hfit⟩))

end Sys2Proof.Machine
end

section
/-! PROOFS. The laws of division (41_checksum_codec.md section 1): linearity, the two kinds of operands that leave the last
bits of the buffer as the remainder, and the first bit of the polynomial. -/

namespace Sys2Proof.Machine

/-! ## Sequences of zeros, slices and flips -/

theorem zeros_xorBits {a : BitSeq} {m : Nat} (h : a.length = m) : xorBits (zeros m) a = a := by
  rw [xorBits_comm, ← h, xorBits_zeros]

/-- A sequence is all zero exactly when it has no one. -/
theorem eq_zeros_iff (s : BitSeq) (m : Nat) (h : s.length = m) : s = zeros m ↔ true ∉ s := by
  simp [zeros, List.eq_replicate_iff, h]

theorem slice_to_end (s : BitSeq) (a : Nat) : slice s a s.length = s.drop a :=
  List.take_of_length_le (by simp)

/-- An inverted bit is the sum with the pattern of one error at that place. -/
theorem flipBit_eq_xorBits (i : Nat) (f : BitSeq) : flipBit i f = xorBits f (flipBit i (zeros f.length)) := by
  induction f generalizing i with
  | nil => simp [flipBit, xorBits]
  | cons b f ih =>
    cases i with
    | zero => simpa [flipBit, xorBits, zeros_succ] using (xorBits_zeros f).symm
    | succ i => simpa [flipBit, xorBits, zeros_succ] using ih i

theorem flipBit_zeros (i j : Nat) : flipBit i (zeros (i + (j + 1))) = zeros i ++ true :: zeros j := by
  induction i with
  | zero => simp [flipBit, zeros_succ]
  | succ i ih =>
    rw [Nat.add_right_comm]
    simpa [flipBit, zeros_succ] using ih

/-- A flip before a position leaves what stands from there on. -/
theorem drop_flipBit {i n : Nat} (h : i < n) (f : BitSeq) : (flipBit i f).drop n = f.drop n :=
  List.drop_modify_of_lt _ _ _ _ h

/-! ## The scan -/

section Scan

variable (k : BitSeq)

/-- Adding the polynomial where the tested bits ask for it commutes with adding two buffers: where both ask for it, it
cancels. -/
theorem ite_xorFront_xorBits (x y : Bool) {a b : BitSeq} (h : a.length = b.length) :
    (if xor x y then xorFront k (xorBits a b) else xorBits a b) =
      xorBits (if x then xorFront k a else a) (if y then xorFront k b else b) := by
  have hright : xorBits a (xorFront k b) = xorFront k (xorBits a b) := by
    rw [xorBits_comm, xorFront_xorBits k b a h.symm, xorBits_comm]
  cases x <;> cases y
  · rfl
  · exact hright.symm
  · exact (xorFront_xorBits k a b h).symm
  · simp [xorFront_xorBits k a (xorFront k b) (by simpa using h), hright]

theorem scan_xorBits (count : Nat) {a b : BitSeq} (h : a.length = b.length) :
    scan k count (xorBits a b) = xorBits (scan k count a) (scan k count b) := by
  induction count generalizing a b with
  | zero => rfl
  | succ count ih =>
    cases a with
    | nil => rfl
    | cons x a =>
      cases b with
      | nil => simp at h
      | cons y b =>
        have hlen : a.length = b.length := by simpa using h
        calc scan k (count + 1) (xorBits (x :: a) (y :: b))
            = scan k count (if xor x y then xorFront k (xorBits a b) else xorBits a b) := rfl
          _ = xorBits (scan k (count + 1) (x :: a)) (scan k (count + 1) (y :: b)) := by
              rw [ite_xorFront_xorBits k x y hlen]
              exact ih (by split <;> split <;> simpa using hlen)

/-- Adding the polynomial itself, first bit included, at the first tested position changes nothing. -/
theorem scan_xorFront_poly (count : Nat) (buf : BitSeq) :
    scan k (count + 1) (xorFront (true :: k) buf) = scan k (count + 1) buf := by
  cases buf with
  | nil => rfl
  | cons b buf => cases b <;> simp [xorFront, scan]

theorem scan_of_take_eq_zeros {count : Nat} {buf : BitSeq} (h : buf.take count = zeros count) :
    scan k count buf = buf.drop count := by
  have hskip := scan_zeros_append k count 0 (buf.drop count)
  rwa [← h, List.take_append_drop] at hskip

theorem xorFront_zeros_left (m : Nat) (buf : BitSeq) : xorFront (zeros m) buf = buf := by
  induction m generalizing buf with
  | zero => rfl
  | succ m ih => cases buf <;> simp [zeros_succ, xorFront, ih]

theorem scan_zeros_left (m count : Nat) (buf : BitSeq) : scan (zeros m) count buf = buf.drop count := by
  induction count generalizing buf with
  | zero => rfl
  | succ count ih => cases buf <;> simp [scan, xorFront_zeros_left, ih]

/-- Under `b"11"` the scan hands on the parity of the bits it has tested, to the last bit. -/
theorem scan_parity (x b : Bool) (m : BitSeq) :
    scan [true] (m.length + 1) (x :: (m ++ [b])) = [xor b (m.foldl xor x)] := by
  induction m generalizing x with
  | nil => cases x <;> simp [scan, xorFront]
  | cons y m ih =>
    rw [List.foldl_cons, ← ih]
    cases x <;> simp [scan, xorFront]

end Scan

/-! ## Division -/

section Divide

variable {a b k : BitSeq} (h1 : 1 ≤ k.length) (h2 : k.length ≤ a.length)

include h1 h2

/-- Linearity (R92). -/
theorem divide_xorBits (hlen : a.length = b.length) :
    divide (xorBits a b) k = xorBits (divide a k) (divide b k) := by
  have hxor := xorBits_length a b hlen
  rw [divide_eq_scan _ k h1 (hxor ▸ h2), divide_eq_scan a k h1 h2, divide_eq_scan b k h1 (hlen ▸ h2), hxor,
    scan_xorBits k.tail _ hlen, hlen]

/-- Consequence (a) of linearity (R92). -/
theorem divide_of_take_eq_zeros (h : a.take (a.length - k.length + 1) = zeros (a.length - k.length + 1)) :
    divide a k = a.drop (a.length - (k.length - 1)) := by
  rw [divide_eq_scan a k h1 h2, scan_of_take_eq_zeros _ h]
  congr 1
  omega

/-- Consequence (b) of linearity (R92). -/
theorem divide_of_drop_one_eq_zeros (h : k.drop 1 = zeros (k.length - 1)) :
    divide a k = a.drop (a.length - (k.length - 1)) := by
  rw [divide_eq_scan a k h1 h2, ← List.drop_one, h, scan_zeros_left]
  congr 1
  omega

end Divide

/-- A buffer of zeros leaves zeros, under every polynomial. -/
theorem divide_zeros (k : BitSeq) (m : Nat) (h : k.length ≤ m) : divide (zeros m) k = zeros (k.length - 1) := by
  cases k with
  | nil => exact List.length_eq_zero_iff.mp (divide_length _ [] (by simp))
  | cons x k =>
    have hrest : m - (m - (x :: k).length + 1) = (x :: k).length - 1 := by simp at *; omega
    rw [divide_eq_scan _ _ (by simp) (by simpa using h), zeros_length, scan_zeros _ _ _ (by simp at *; omega), hrest]

/-- Settles O32: `divide_congr_tail`. -/
theorem firstPolynomialBitNeverAffectsTheResult : Obligations.FirstPolynomialBitNeverAffectsTheResult := by
  intro buf k k' hk hbuf hlen htail
  exact divide_congr_tail (by omega) hbuf hlen.symm (by simpa using htail)

/-- Settles O33: the three laws of the section above, the slices read as what stands before and after a position. -/
theorem divisionIsLinear : Obligations.DivisionIsLinear := by
  intro b₁ b₂ k hlen hk hbuf
  have h1 : 1 ≤ k.length := by omega
  rw [slice_to_end]
  exact ⟨divide_xorBits h1 hbuf hlen, divide_of_take_eq_zeros h1 hbuf, divide_of_drop_one_eq_zeros h1 hbuf⟩

end Sys2Proof.Machine
end

section
/-! PROOFS. What the zero test notices (41_checksum_codec.md R95 to R97): a message with its checksum verifies, an error
pattern is noticed exactly when it does not verify itself, and one inverted bit does not verify unless `K[1..n)` is all
zero. -/

namespace Sys2Proof.Machine

/-- A message followed by its checksum is the message followed by zeros, plus zeros followed by the checksum: both parts
leave the checksum as their remainder (R95). -/
theorem verifies_append_checksum {m k : BitSeq} (hm : 1 ≤ m.length) (hk : 1 ≤ k.length) :
    verifies (m ++ checksum m k) k = true := by
  have hsum : m ++ checksum m k = xorBits (m ++ zeros (k.length - 1)) (zeros m.length ++ checksum m k) := by
    rw [xorBits_append _ _ _ _ (by simp), xorBits_zeros, zeros_xorBits (checksum_length m k)]
  have hpadded : divide (zeros m.length ++ checksum m k) k = checksum m k := by
    have hcount : m.length + (k.length - 1) - k.length + 1 = m.length := by omega
    rw [divide_of_take_eq_zeros hk (by simp; omega) (by simp [hcount])]
    simp
  rw [verifies_iff, hsum, divide_xorBits hk (by simp; omega) (by simp), hpadded, ← checksum, xorBits_self,
    checksum_length]

/-- An error pattern on a verifying frame is noticed exactly when it does not divide to zero itself (R96). -/
theorem divide_xorBits_eq_zeros_iff {f e k : BitSeq} (hk : 1 ≤ k.length) (hf : k.length ≤ f.length)
    (he : e.length = f.length) (hver : divide f k = zeros (k.length - 1)) :
    divide (xorBits f e) k = zeros (k.length - 1) ↔ divide e k = zeros (k.length - 1) := by
  rw [divide_xorBits hk hf he.symm, hver, zeros_xorBits (divide_length e k (by omega))]

/-- The polynomial `b"1011"` itself, at the front of a frame, as an error pattern (R96). -/
theorem flipBit_eq_xorFront_1011 {f : BitSeq} (h : 4 ≤ f.length) :
    flipBit 0 (flipBit 2 (flipBit 3 f)) = xorFront [true, false, true, true] f := by
  match f, h with
  | x :: y :: z :: w :: f, _ => simp [flipBit, xorFront]

/-- Settles O35: the general part is `divide_xorBits_eq_zeros_iff`; the three flips add the polynomial at the first
position, which the scan does not see; the rule's frame is a computation. -/
theorem errorDetectionIsLinear : Obligations.ErrorDetectionIsLinear := by
  refine ⟨fun f e k hk hf he hver => divide_xorBits_eq_zeros_iff (by omega) hf he hver, fun f hf hver => ?_,
    by decide, by decide, by decide⟩
  rw [flipBit_eq_xorFront_1011 hf]
  rw [verifies_iff, divide_eq_scan f _ (by simp) (by simpa using hf)] at hver
  rw [verifies_iff, divide_eq_scan _ _ (by simp) (by simpa using hf), xorFront_length]
  exact (scan_xorFront_poly _ _ f).trans hver

/-! ## One inverted bit (R97) -/

/-- The buffer has a one, and its last one is at index `p` or before. -/
def OnesUpTo (p : Nat) (buf : BitSeq) : Prop := true ∈ buf ∧ ∀ i, buf[i]? = some true → i ≤ p

theorem exists_last_one {k : BitSeq} (h : true ∈ k) : ∃ p, k[p]? = some true ∧ OnesUpTo p k := by
  induction k with
  | nil => simp at h
  | cons x k ih =>
    by_cases hk : true ∈ k
    · obtain ⟨p, hp, -, hlast⟩ := ih hk
      refine ⟨p + 1, hp, h, fun i hi => ?_⟩
      cases i with
      | zero => omega
      | succ i => exact Nat.succ_le_succ (hlast i hi)
    · have hx : x = true := by simpa [hk, eq_comm] using h
      refine ⟨0, congrArg some hx, h, fun i hi => ?_⟩
      cases i with
      | zero => omega
      | succ i => exact absurd (List.mem_of_getElem? (l := k) hi) hk

theorem xorFront_getElem? (k buf : BitSeq) (i : Nat) :
    (xorFront k buf)[i]? = buf[i]?.map fun b => xor b (k[i]?.getD false) := by
  induction k generalizing buf i with
  | nil => simp [xorFront]
  | cons kj k ih =>
    cases buf with
    | nil => simp
    | cons b buf => cases i <;> simp [xorFront, ih]

theorem xorFront_getElem?_of_ne_one {k : BitSeq} {i : Nat} (h : k[i]? ≠ some true) (buf : BitSeq) :
    (xorFront k buf)[i]? = buf[i]? := by
  have hki : k[i]?.getD false = false := by
    cases hk : k[i]? with
    | none => rfl
    | some x => simpa [hk] using h
  simp [xorFront_getElem?, hki]

/-- Where the polynomial is added to earlier ones, its last one falls on a zero and is the last one of the sum. -/
theorem onesUpTo_xorFront {k buf : BitSeq} {p : Nat} (hp : k[p]? = some true) (hk : OnesUpTo p k)
    (hlen : k.length ≤ buf.length) (hbuf : ∀ i, buf[i]? = some true → i < p) : OnesUpTo p (xorFront k buf) := by
  refine ⟨?one, fun i hi => ?last⟩
  case one =>
    have hpk : p < k.length := (List.getElem?_eq_some_iff.mp hp).1
    have hzero : buf[p]? = some false := by
      have hne : buf[p]? ≠ some true := fun h => lt_irrefl p (hbuf p h)
      simpa [List.getElem?_eq_getElem (hpk.trans_le hlen)] using hne
    exact List.mem_of_getElem? (i := p) (by simp [xorFront_getElem?, hzero, hp])
  case last =>
    by_contra hip
    rw [xorFront_getElem?_of_ne_one fun h => hip (hk.2 i h)] at hi
    exact hip (hbuf i hi).le

/-- The scan never clears a buffer whose last one is no further back than the polynomial's. -/
theorem true_mem_scan {k : BitSeq} {p : Nat} (hp : k[p]? = some true) (hk : OnesUpTo p k) (count : Nat) {buf : BitSeq}
    (hlen : count + k.length ≤ buf.length) (hbuf : OnesUpTo p buf) : true ∈ scan k count buf := by
  induction count generalizing buf with
  | zero => exact hbuf.1
  | succ count ih =>
    obtain ⟨hone, hlast⟩ := hbuf
    cases buf with
    | nil => simp at hlen
    | cons x buf =>
      have hlen' : count + k.length ≤ buf.length := by simp at hlen; omega
      have hearlier (i : Nat) (hi : buf[i]? = some true) : i < p := hlast (i + 1) hi
      cases x with
      | false => exact ih hlen' ⟨by simpa using hone, fun i hi => (hearlier i hi).le⟩
      | true => exact ih (by simpa using hlen') (onesUpTo_xorFront hp hk (by omega) hearlier)

/-- The scan of a single one leaves a one: it passes over the one, or over the zeros before it and then `true_mem_scan`. -/
theorem true_mem_scan_single {k : BitSeq} (hone : true ∈ k) (count i j : Nat) (hlen : count + k.length ≤ i + (j + 1)) :
    true ∈ scan k count (zeros i ++ true :: zeros j) := by
  rcases Nat.le_total count i with huntested | htested
  · obtain ⟨rest, rfl⟩ := Nat.exists_eq_add_of_le huntested
    rw [← zeros_append, List.append_assoc, scan_of_take_eq_zeros k (List.take_left' (by simp))]
    simp
  · obtain ⟨p, hp, hlast⟩ := exists_last_one hone
    obtain ⟨count, rfl⟩ := Nat.exists_eq_add_of_le htested
    rw [scan_zeros_append]
    refine true_mem_scan hp hlast count (by simp; omega) ⟨by simp, fun q hq => ?_⟩
    cases q with
    | zero => omega
    | succ q => simp [zeros, List.getElem?_replicate] at hq

/-- One inverted bit among zeros divides to zero only when `K[1..n)` is all zero. -/
theorem divide_flipBit_zeros_ne_zeros {k : BitSeq} {i len : Nat} (hk : 1 ≤ k.length) (hlen : k.length ≤ len)
    (hi : i < len) (htail : k.drop 1 ≠ zeros (k.length - 1)) :
    divide (flipBit i (zeros len)) k ≠ zeros (k.length - 1) := by
  have hone : true ∈ k.tail := by
    rwa [Ne, eq_zeros_iff _ _ (by simp), not_not, List.drop_one] at htail
  rw [Ne, eq_zeros_iff _ _ (divide_length _ k (by simp; omega)), not_not,
    divide_eq_scan _ k hk (by simpa using hlen), flipBit_length, zeros_length]
  obtain ⟨j, rfl⟩ : ∃ j, len = i + (j + 1) := ⟨len - i - 1, by omega⟩
  rw [flipBit_zeros]
  exact true_mem_scan_single hone _ i j (by simp; omega)

/-- Every single-bit error is noticed, unless `K[1..n)` is all zero (R97). -/
theorem verifies_flipBit_eq_false {k f : BitSeq} {i : Nat} (hk : 1 ≤ k.length) (hf : k.length ≤ f.length)
    (hver : verifies f k = true) (hi : i < f.length) (htail : k.drop 1 ≠ zeros (k.length - 1)) :
    verifies (flipBit i f) k = false := by
  rw [verifies_iff] at hver
  rw [verifies_false_iff, flipBit_eq_xorBits, Ne, divide_xorBits_eq_zeros_iff hk hf (by simp) hver]
  exact divide_flipBit_zeros_ne_zeros hk hf hi htail

/-- When `K[1..n)` is all zero, the zero test reads the last `n - 1` bits alone (R97). -/
theorem verifies_flipBit_of_drop_one_eq_zeros {k f : BitSeq} {i : Nat} (hk : 1 ≤ k.length) (hf : k.length ≤ f.length)
    (hi : i < f.length - (k.length - 1)) (htail : k.drop 1 = zeros (k.length - 1)) :
    verifies (flipBit i f) k = verifies f k := by
  rw [verifies, verifies, divide_of_drop_one_eq_zeros hk hf htail,
    divide_of_drop_one_eq_zeros hk (by simpa using hf) htail, flipBit_length, drop_flipBit hi]

end Sys2Proof.Machine
end

section
/-! PROOFS. CRC_GEN and CRC_CHK (41_checksum_codec.md R93, R94): what they do with an operand that fits the buffer, and with
that the statements about both commands. -/

namespace Sys2Proof.Machine

section FittingOperand

variable {c : Config} (s : State)

theorem crcGen_of_nil (h : exceeds (([] : BitSeq).length + (s.poly.length - 1)) c.frameMaxBits = false) :
    crcGen c [] s = raise .invalidConfiguration s :=
  (if_neg (Bool.eq_false_iff.mp h)).trans (if_pos rfl)

theorem crcGen_of_ne_nil {m : BitSeq} (h : exceeds (m.length + (s.poly.length - 1)) c.frameMaxBits = false)
    (hm : m ≠ []) : crcGen c m s = respond { bits := checksum m s.poly } s :=
  (if_neg (Bool.eq_false_iff.mp h)).trans (if_neg (by simpa using hm))

theorem crcChk_of_short {f : BitSeq} (h : exceeds f.length c.frameMaxBits = false) (hf : f.length < s.poly.length) :
    crcChk c f s = raise .invalidConfiguration s :=
  (if_neg (Bool.eq_false_iff.mp h)).trans (if_pos hf)

theorem crcChk_of_long {f : BitSeq} (h : exceeds f.length c.frameMaxBits = false) (hf : s.poly.length ≤ f.length) :
    crcChk c f s = respond { ok := verifies f s.poly } s :=
  (if_neg (Bool.eq_false_iff.mp h)).trans (if_neg (by omega))

end FittingOperand

/-! ## The checksum in the rule's corner cases (R93) -/

theorem checksum_zeros (k : BitSeq) {m : Nat} (hm : 1 ≤ m) : checksum (zeros m) k = zeros (k.length - 1) := by
  rw [checksum, zeros_append]
  exact divide_zeros k _ (by omega)

theorem checksum_eq_parity {m : BitSeq} (hm : m ≠ []) : checksum m [true, true] = [m.foldl xor false] := by
  obtain ⟨x, m, rfl⟩ := List.exists_cons_of_ne_nil hm
  rw [checksum, divide_eq_scan _ _ (by simp) (by simp)]
  have hparity := scan_parity x false m
  simpa [zeros] using hparity

/-- A polynomial with `K[1..n)` all zero leaves the zeros appended to the message. -/
theorem checksum_of_drop_one_eq_zeros {m k : BitSeq} (hm : 1 ≤ m.length) (hk : 1 ≤ k.length)
    (htail : k.drop 1 = zeros (k.length - 1)) : checksum m k = zeros (k.length - 1) := by
  rw [checksum, divide_of_drop_one_eq_zeros hk (by simp; omega) htail]
  simp

/-- Settles O19: the clauses are the branches of `crcGen`, and the corner cases are laws of `checksum`. -/
theorem crcGenReturnsTheRemainder : Obligations.CrcGenReturnsTheRemainder := by
  intro c s m
  refine ⟨rfl, crcGen_of_exceeds s, ?empty, fun hfit hm => ?completes⟩
  case empty =>
    rintro hfit rfl
    exact crcGen_of_nil s hfit
  case completes =>
    have hlen : 1 ≤ m.length := List.length_pos_iff.mpr hm
    refine ⟨checksum m s.poly, crcGen_of_ne_nil s hfit hm, rfl, checksum_length m s.poly, ?zeros, ?checkValue,
      ?parity, ?zeroTail⟩
    case zeros => exact fun hz => hz ▸ checksum_zeros s.poly hlen
    case checkValue =>
      rintro rfl hk
      rw [hk]
      decide
    case parity => exact fun hk => hk ▸ checksum_eq_parity hm
    case zeroTail =>
      intro b hk
      rw [hk]
      exact checksum_of_drop_one_eq_zeros hlen (by simp) rfl

/-- Settles O20: the clauses are the branches of `crcChk`, and the corner cases are laws of `divide`. -/
theorem crcChkTestsTheRemainder : Obligations.CrcChkTestsTheRemainder := by
  intro c s f
  refine ⟨rfl, crcChk_of_exceeds s, crcChk_of_short s, fun hfit hk hf => ?_⟩
  refine ⟨verifies f s.poly, crcChk_of_long s hfit hf, verifies_iff f s.poly, fun hz => ?_, fun htail => ?_⟩
  · rw [verifies_iff, hz]
    exact divide_zeros s.poly _ hf
  · rw [verifies_iff, divide_of_drop_one_eq_zeros (by omega) hf htail, slice_to_end]

/-- Settles O25: `exec` runs `crcGen` in this hardware's build, with a message that fits. -/
theorem crcGenCompletes : Obligations.CrcGenCompletes :=
  fun s m hm hfit => (exec_eq (.crcGen m) s).trans (congrArg _ (crcGen_of_ne_nil s hfit hm))

/-- Settles O26: `exec` runs `crcChk` in this hardware's build, with a codeword that fits and is long enough. -/
theorem crcChkCompletes : Obligations.CrcChkCompletes := by
  intro s f hf hfit
  have hok : verifies f s.poly = decide (divide f s.poly = zeros (s.poly.length - 1)) :=
    Bool.eq_iff_iff.mpr ((verifies_iff f s.poly).trans decide_eq_true_iff.symm)
  rw [exec_eq, ← hok]
  exact congrArg _ (crcChk_of_long s hfit hf)

/-- Settles O34: CRC_GEN completes with the checksum, and the message followed by it verifies. -/
theorem checksumRoundTrip : Obligations.ChecksumRoundTrip := by
  intro s s' m hlegal hpoly hm hfit
  obtain ⟨hk, -⟩ := hlegal
  refine ⟨checksum m s.poly, crcGenCompletes s m (List.length_pos_iff.mp hm) hfit, ?_⟩
  have hlong : s'.poly.length ≤ (m ++ checksum m s.poly).length := by simp [hpoly]; omega
  have hok : verifies (m ++ checksum m s.poly) s'.poly = true := by
    rw [hpoly]
    exact verifies_append_checksum hm (by omega)
  rw [exec_eq, commandResult, crcChk_of_long s' (by simpa using hfit) hlong, hok]
  rfl

/-- Settles O36: `b"1011"` has a one after its first bit, so CRC_CHK's zero test fails on a flipped codeword; the general
clauses are the two lemmas about a flip. -/
theorem singleBitFlipsAreDetected : Obligations.SingleBitFlipsAreDetected := by
  refine ⟨fun s f i hpoly hf hfit hver hi => ?_, fun k f i hk hf hver hi htail => ?_,
    fun k f i hk hf hver hi htail => ?_⟩
  · have hlong : s.poly.length ≤ f.length := by simpa [hpoly] using hf
    have hnoticed : verifies (flipBit i f) s.poly = false :=
      verifies_flipBit_eq_false (by simp [hpoly]) hlong hver hi (by rw [hpoly]; decide)
    rw [exec_eq, commandResult, crcChk_of_long s (by simpa using hfit) (by simpa using hlong), hnoticed]
    rfl
  · exact verifies_flipBit_eq_false (by omega) hf hver hi htail
  · exact (verifies_flipBit_of_drop_one_eq_zeros (by omega) hf hi htail).trans hver

end Sys2Proof.Machine
end

section
/-! PROOFS. The Framer (42_framer.md): the fields of a frame read back by position, what FRM_ENC and FRM_DEC do in each
case of their tests, and with that the statements about both commands. -/

namespace Sys2Proof.Machine

/-! ## Reading fields back -/

/-- `bin_k` reads its value modulo `2^k` (00_scope.md R8, decision D27). -/
theorem bin_mod_two_pow (k v : Nat) : bin k (v % 2 ^ k) = bin k v := by
  refine List.ext_getElem? fun i => ?_
  by_cases hi : i < k
  · have hbit : k - 1 - i < k := by omega
    simp [bin_getElem? _ _ _ hi, Nat.testBit_mod_two_pow, hbit]
  · simp [hi]

@[simp] theorem val_zeros (k : Nat) : val (zeros k) = 0 := by
  induction k with
  | zero => rfl
  | succ k ih => simp [zeros_succ, val, ih]

@[simp] theorem slice_zeros (m a b : Nat) : slice (zeros m) a b = zeros (min (b - a) (m - a)) := by
  simp [slice, zeros]

/-- A slice that ends within the first of two sequences is a slice of it. -/
theorem slice_append_of_le {l : BitSeq} (s : BitSeq) (a : Nat) {b : Nat} (h : b ≤ l.length) :
    slice (l ++ s) a b = slice l a b := by
  simp [slice, List.drop_append, List.take_append]
  omega

theorem octetsFrom_getElem? (f : BitSeq) (start : Nat) {count j : Nat} (hj : j < count) :
    (octetsFrom f start count)[j]? = some (BitVec.ofNat 8 (val (slice f (start + 8 * j) (start + 8 * j + 8)))) := by
  simp [octetsFrom, hj]

/-- Eight bits of a frame are an octet's value, with nothing cut off. -/
theorem octetsFrom_toNat {f : BitSeq} {start count j : Nat} (hj : j < count) (hf : start + 8 * count ≤ f.length) :
    (octetsFrom f start count)[j]?.map BitVec.toNat = some (val (slice f (start + 8 * j) (start + 8 * j + 8))) := by
  have hlt := val_lt (slice f (start + 8 * j) (start + 8 * j + 8))
  rw [slice_length f _ _ (by omega), Nat.add_sub_cancel_left] at hlt
  rw [octetsFrom_getElem? f start hj, Option.map_some, BitVec.toNat_ofNat, Nat.mod_eq_of_lt hlt]

theorem octetsFrom_zeros (m start count : Nat) : octetsFrom (zeros m) start count = List.replicate count 0 := by
  simp [octetsFrom]

/-! ## The frame FRM_ENC packs -/

section Frame

variable (w seq : Nat) (data : List Octet) (k : BitSeq)

theorem frameOf_octet {j : Nat} {o : Octet} (h : data[j]? = some o) :
    slice (frameOf w seq data k) (w + 8 * j) (w + 8 * j + 8) = bin 8 o.toNat := by
  have hj : j < data.length := (List.getElem?_eq_some_iff.mp h).1
  have hfield := slice_append_right (seqField w seq)
    (payload data ++ checksum (seqField w seq ++ payload data) k) (8 * j) (8 * j + 8)
  rw [seqField_length, ← List.append_assoc] at hfield
  calc slice (frameOf w seq data k) (w + 8 * j) (w + 8 * j + 8)
      = slice (payload data ++ checksum (seqField w seq ++ payload data) k) (8 * j) (8 * j + 8) := hfield
    _ = slice (payload data) (8 * j) (8 * j + 8) := slice_append_of_le _ _ (by simp; omega)
    _ = bin 8 o.toNat := payload_slice data j o h

/-- The extraction of the data unit undoes its assembly (30_encoding.md R70). -/
theorem octetsFrom_frameOf : octetsFrom (frameOf w seq data k) w data.length = data := by
  refine List.ext_getElem? fun j => ?_
  by_cases hj : j < data.length
  · have hoctet : data[j]? = some data[j] := List.getElem?_eq_getElem hj
    rw [octetsFrom_getElem? _ _ hj, frameOf_octet w seq data k hoctet, hoctet, val_bin,
      Nat.mod_eq_of_lt data[j].isLt, BitVec.ofNat_toNat, BitVec.setWidth_eq]
  · simp [hj]

/-- A frame ends with the checksum of everything before it, so it verifies (R111). -/
theorem verifies_frameOf (hw : 1 ≤ w) (hk : 1 ≤ k.length) : verifies (frameOf w seq data k) k = true :=
  verifies_append_checksum (by simp; omega) hk

end Frame

/-! ## FRM_ENC, case by case (R110) -/

section Encoder

variable {c : Config} (s : State) (seq : Nat) {data : List Octet}

theorem frmEnc_of_frame_exceeds
    (h : exceeds (c.w + 8 * data.length + (s.poly.length - 1)) c.frameMaxBits = true) :
    frmEnc c seq data s = raise .lengthLimit s :=
  ite_eq_left_iff.mpr fun _ => if_pos h

theorem frmEnc_of_fits (hdata : exceeds data.length c.dataMaxOctets = false)
    (hframe : exceeds (c.w + 8 * data.length + (s.poly.length - 1)) c.frameMaxBits = false) :
    frmEnc c seq data s = respond { bits := frameOf c.w seq data s.poly }
      (emit (.framed (payload data) (checksum (seqField c.w seq ++ payload data) s.poly)
        (frameOf c.w seq data s.poly)) s) :=
  (if_neg (by simp [hdata])).trans (if_neg (by simp [hframe]))

/-- FRM_ENC uses only `S mod 2^W` (decision D27). -/
theorem frmEnc_mod_two_pow (c : Config) (data : List Octet) :
    frmEnc c (seq % 2 ^ c.w) data s = frmEnc c seq data s := by
  simp only [frmEnc, seqField, bin_mod_two_pow]

/-- On this hardware, with the record's payload and checksum read from the frame by position. -/
theorem exec_frmEnc_of_fits (hdata : exceeds data.length Config.hardware.dataMaxOctets = false)
    (hframe : exceeds (2 + 8 * data.length + (s.poly.length - 1)) Config.hardware.frameMaxBits = false) :
    exec (.frmEnc seq data) s = .next (respond { bits := frameOf 2 seq data s.poly }
      (emit (.framed (slice (frameOf 2 seq data s.poly) 2 (2 + 8 * data.length))
        (slice (frameOf 2 seq data s.poly) (2 + 8 * data.length) (frameOf 2 seq data s.poly).length)
        (frameOf 2 seq data s.poly)) s)) := by
  rw [frameOf_payload, frameOf_checksum, exec_eq]
  exact congrArg _ (frmEnc_of_fits s seq hdata hframe)

end Encoder

/-! ## FRM_DEC, case by case (R112) -/

section Decoder

variable {c : Config} (s : State) {f : BitSeq} (hfit : exceeds f.length c.frameMaxBits = false)
include hfit

theorem frmDec_of_short (hshort : f.length < c.w + (s.poly.length - 1)) :
    frmDec c f s = respond { outcome := .malformed } (emit (.malformedFrame f) s) :=
  (if_neg (by simp [hfit])).trans (if_pos hshort)

theorem frmDec_of_not_verifies (hlong : c.w + (s.poly.length - 1) ≤ f.length) (hver : verifies f s.poly = false) :
    frmDec c f s = respond { outcome := .corrupted } (emit (.crcFail f) s) :=
  (if_neg (by simp [hfit])).trans <| (if_neg (by omega)).trans (if_pos (by simp [hver]))

variable {p : Nat} (hlen : f.length = c.w + p + (s.poly.length - 1)) (hver : verifies f s.poly = true)
include hlen hver

theorem frmDec_of_partial_octet (hp : p % 8 ≠ 0) :
    frmDec c f s = respond { outcome := .malformed } (emit (.malformedFrame f) s) := by
  obtain rfl : p = f.length - c.w - (s.poly.length - 1) := by omega
  exact (if_neg (by simp [hfit])).trans <| (if_neg (by omega)).trans <| (if_neg (by simp [hver])).trans (if_pos hp)

theorem frmDec_of_whole_octets (hp : p % 8 = 0) :
    frmDec c f s =
      respond { outcome := .decOk, seq := val (slice f 0 c.w), data := octetsFrom f c.w (p / 8) } s := by
  obtain rfl : p = f.length - c.w - (s.poly.length - 1) := by omega
  exact (if_neg (by simp [hfit])).trans <| (if_neg (by omega)).trans <| (if_neg (by simp [hver])).trans <|
    if_neg (by simp [hp])

end Decoder

/-- FRM_DEC undoes FRM_ENC, in every build and under every polynomial that is not empty (R114). -/
theorem frmDec_frameOf {c : Config} (s : State) (seq : Nat) {data : List Octet} (hw : 1 ≤ c.w)
    (hk : 1 ≤ s.poly.length)
    (hframe : exceeds (c.w + 8 * data.length + (s.poly.length - 1)) c.frameMaxBits = false) :
    frmDec c (frameOf c.w seq data s.poly) s =
      respond { outcome := .decOk, seq := seq % 2 ^ c.w, data := data } s := by
  have hver := verifies_frameOf c.w seq data s.poly hw hk
  rw [frmDec_of_whole_octets s (by simpa using hframe) (frameOf_length ..) hver (by simp), frameOf_seqField, seqField,
    val_bin, Nat.mul_div_cancel_left _ (by omega), octetsFrom_frameOf]

/-! ## The statements -/

/-- Settles O37: `exec` runs FRM_ENC, which packs `frameOf`, and FRM_DEC, which `frmDec_frameOf` says undoes it. -/
theorem frameRoundTrip : Obligations.FrameRoundTrip := by
  intro s s' seq data hlegal hpoly hdata hframe
  obtain ⟨hk, -⟩ := hlegal
  refine ⟨frameOf 2 seq data s.poly, exec_frmEnc_of_fits s seq hdata hframe, ?_⟩
  rw [← hpoly] at hk hframe ⊢
  rw [exec_eq]
  exact congrArg _ (frmDec_frameOf s' seq (by simp) (by omega) hframe)

/-- Settles O21: the clauses are the branches of `frmEnc`; the sequence field is not empty in a legal build, so CRC_GEN
answers the same checksum for the same bits. -/
theorem frmEncPacksTheFrame : Obligations.FrmEncPacksTheFrame := by
  intro c s seq data hc _
  refine ⟨rfl, ?refused, fun hdata hframe => ?completes, (frmEnc_mod_two_pow s seq c data).symm⟩
  case refused =>
    rintro (hdata | hframe)
    · exact frmEnc_of_exceeds s seq hdata
    · exact frmEnc_of_frame_exceeds s seq hframe
  case completes =>
    have hmessage : bin c.w seq ++ payload data ≠ [] := by
      have hw := hc.w_pos
      exact List.ne_nil_of_length_pos (by simp; omega)
    exact ⟨payload data, checksum (bin c.w seq ++ payload data) s.poly, frameOf c.w seq data s.poly,
      frmEnc_of_fits s seq hdata hframe, rfl, rfl, rfl, frameOf_length ..,
      crcGen_of_ne_nil s (by simpa using hframe) hmessage⟩

/-- Settles O22: the clauses are the branches of `frmDec`; each field of DEC_OK is as wide as its bits say; zeros verify
under every polynomial and have the value zero. -/
theorem frmDecChecksInTheNumberedOrder : Obligations.FrmDecChecksInTheNumberedOrder := by
  intro c s f hc hpoly
  refine ⟨rfl, frmDec_of_exceeds s, frmDec_of_short s, fun hfit hlong hne => ?corrupted,
    fun p hfit hlen hdiv hp => ?partialOctet, fun p hfit hlen hdiv hp => ?decOk, fun p hfit hlen hp hz => ?zeroFrame⟩
  case corrupted => exact frmDec_of_not_verifies s hfit hlong ((verifies_false_iff f s.poly).mpr hne)
  case partialOctet => exact frmDec_of_partial_octet s hfit hlen ((verifies_iff f s.poly).mpr hdiv) hp
  case decOk =>
    have hseq := val_lt (slice f 0 c.w)
    rw [slice_length f 0 c.w (by omega)] at hseq
    exact ⟨_, _, frmDec_of_whole_octets s hfit hlen ((verifies_iff f s.poly).mpr hdiv) hp, rfl, hseq,
      octetsFrom_length .., fun j hj => octetsFrom_toNat hj (by omega)⟩
  case zeroFrame =>
    have hw := hc.w_pos
    obtain ⟨m, rfl⟩ : ∃ m, f = zeros m := ⟨_, hz⟩
    have hver : verifies (zeros m) s.poly = true :=
      (verifies_iff _ _).mpr (divide_zeros s.poly m (by simp at hlen; omega))
    rw [frmDec_of_whole_octets s hfit hlen hver hp, slice_zeros, val_zeros, octetsFrom_zeros]
    rfl

/-- Settles O27: the frame is `frameOf`, and its fields by position are the lemmas about it. -/
theorem everyEncodedFrameIsWellFormed : Obligations.EveryEncodedFrameIsWellFormed := by
  intro s seq data hdata hframe
  refine ⟨frameOf 2 seq data s.poly, exec_frmEnc_of_fits s seq hdata hframe, frameOf_length .., frameOf_seqField ..,
    frameOf_payload .., ?_⟩
  rw [frameOf_message]
  exact frameOf_checksum ..

/-- Settles O29: each of the five ways FRM_DEC ends gives its one response and its record. -/
theorem onlyDecOkGivesFieldsOut : Obligations.OnlyDecOkGivesFieldsOut := by
  intro s t f r hexec hr
  obtain rfl : frmDec Config.hardware f s = t := by simpa [exec_eq, commandResult] using hexec
  rcases frmDec_cases Config.hardware s f with ⟨-, h⟩ | ⟨-, -, h⟩ | ⟨-, -, -, h⟩ | ⟨-, -, -, -, h⟩ |
    ⟨-, -, -, -, h⟩
  all_goals
    rw [h] at hr ⊢
    obtain rfl := List.singleton_injective (List.append_cancel_left hr)
    simp

/-- Settles O38: `b"1011"` has a one after its first bit, so a flipped frame does not verify; the two words are zeros and the
polynomial itself. -/
theorem singleBitFlipNeverDecodes : Obligations.SingleBitFlipNeverDecodes := by
  refine ⟨fun s s' seq data i hs hs' hdata hframe hi => ?_, zeros 4, [true, false, true, true], by decide⟩
  refine ⟨frameOf 2 seq data s.poly, exec_frmEnc_of_fits s seq hdata (by simpa [hs] using hframe), ?_⟩
  rw [hs, ← hs', exec_eq]
  have hver := verifies_frameOf 2 seq data s'.poly (by omega) (by simp [hs'])
  have hflipped : verifies (flipBit i (frameOf 2 seq data s'.poly)) s'.poly = false :=
    verifies_flipBit_eq_false (by simp [hs']) (by simp [hs']; omega) hver (by simpa [hs'] using hi)
      (by rw [hs']; decide)
  exact congrArg _ (frmDec_of_not_verifies s' (by simpa [hs'] using hframe) (by simp [hs']) hflipped)

/-- Settles O28: `exec` runs `frmDec` in this hardware's build, and the clauses are its branches for a frame that fits. -/
theorem frmDecCompletes : Obligations.FrmDecCompletes := by
  intro s f hfit
  have hlen (hlong : 2 + (s.poly.length - 1) ≤ f.length) :
      f.length = Config.hardware.w + (f.length - 2 - (s.poly.length - 1)) + (s.poly.length - 1) := by
    simp; omega
  rw [← verifies_iff, Ne, ← verifies_iff, Bool.not_eq_true, exec_eq]
  exact ⟨fun hlong hver hp => congrArg _ (frmDec_of_whole_octets s hfit (hlen hlong) hver hp),
    fun hlong hver => congrArg _ (frmDec_of_not_verifies s hfit hlong hver),
    fun hlong hver hp => congrArg _ (frmDec_of_partial_octet s hfit (hlen hlong) hver hp),
    fun hshort => congrArg _ (frmDec_of_short s hfit hshort)⟩

end Sys2Proof.Machine
end

section
/-! PROOFS. Exceptions (60_exceptions.md): an idle codec keeps its state (R151), and an error leaves nothing but its
response (R140). -/

namespace Sys2Proof.Machine

/-- Settles O11: the first arm of `step`. -/
theorem idleStepKeepsTheState : Obligations.IdleStepKeepsTheState := by
  intro s hin
  simp only [step, hin]

/-- A command whose response is an error adds only that response, with the code and defaults (60_exceptions.md R140). -/
theorem commandResult_of_error {c : Config} {i : Instr} {s : State} {r : Response}
    (hr : (commandResult c i s).responses = s.responses ++ [r]) (herr : r.status ≠ .ok) :
    commandResult c i s = raise r.status s := by
  obtain ⟨p, resp, es, hresult, -, -, herror⟩ := commandResult_form c i s
  rw [hresult] at hr ⊢
  obtain rfl : resp = r := List.singleton_injective (List.append_cancel_left hr)
  obtain ⟨rfl, rfl, hdefaults⟩ := herror herr
  rw [hdefaults, List.append_nil]
  rfl

/-- Settles O14: an idle step and a reset append no response, an illegal word raises its status, and a command is
`commandResult_of_error`. -/
theorem anErrorWritesNoStateAndEmitsNothing : Obligations.AnErrorWritesNoStateAndEmitsNothing := by
  intro s t r hst hr herr
  rcases step_cases s with ⟨-, hstep⟩ | ⟨rest, -, hstep⟩ | ⟨_, rest, -, hin, -, hstep⟩ |
    ⟨_, rest, i, hin, -, hstep⟩
  all_goals
    rw [hstep] at hst
    cases hst
  · simp at hr
  · simp at hr
  · obtain rfl := List.singleton_injective (List.append_cancel_left hr)
    rw [hin]
    rfl
  · rw [commandResult_of_error hr herr, hin]
    rfl

end Sys2Proof.Machine
end

section
/-! PROOFS. Reset and hazards (70_reset_and_hazards.md): the reset action (R160), and runs over what the host has asked for:
CFG_POLY before the next command (R164), and every command answered (R168). -/

namespace Sys2Proof.Machine

/-- Settles O8: the second arm of `step`; the build's reset value is b"1011". -/
theorem hostResetSetsPolyAndNothingElse : Obligations.HostResetSetsPolyAndNothingElse := by
  intro s rest hin
  simp only [step, hin, resetAction, writePoly, hardware_polyReset]

/-- A run goes on from the state its first step answers. -/
theorem core_run_succ_of_step {s t : State} (h : step s = .next t) (n : Nat) :
    core.run (n + 1) s = core.run n t := by
  simp only [Host.Core.run, core, h]

/-- A run of one step is that step, however it ends. -/
theorem core_run_one (s : State) : core.run 1 s = step s := by
  simp only [Host.Core.run, core]
  cases step s <;> rfl

/-- Settles O17: the first step is CFG_POLY with a legal operand (`cfgPolyCompletes`), the second the command of the request
that it leaves as the oldest. -/
theorem cfgPolyIsInForceForTheNextCommand : Obligations.CfgPolyIsInForceForTheNextCommand := by
  intro s k r₁ r₂ rest i hin hdec₁ hdec₂ hlong hfit
  have hfirst : step s =
      .next { s with poly := k, inputs := .command r₂ :: rest, responses := s.responses ++ [{}] } :=
    (step_of_command_decode hin hdec₁).trans (cfgPolyCompletes _ k hlong hfit)
  rw [core_run_succ_of_step hfirst, core_run_one]
  exact step_of_command_decode rfl hdec₂

/-- The commands of a queue are its oldest entry's and those behind it. -/
theorem commandCount_take_one_add_tail (inputs : List HostInput) :
    commandCount (inputs.take 1) + commandCount inputs.tail = commandCount inputs := by
  rw [← List.drop_one, commandCount, commandCount, ← List.countP_append, List.take_append_drop, commandCount]

/-- Settles O12, by induction on the number of entries: a step takes the oldest entry and appends its response
(`eachStepOnlyAppends`). -/
theorem everyQueuedCommandGetsItsResponse : Obligations.EveryQueuedCommandGetsItsResponse := by
  intro s
  generalize hn : s.inputs.length = n
  induction n generalizing s with
  | zero =>
    have hin : s.inputs = [] := List.length_eq_zero_iff.mp hn
    exact ⟨s, rfl, hin, by simp [hin, commandCount]⟩
  | succ n ih =>
    obtain ⟨t, rs, -, hstep, hin, hresp, -, -, hrs⟩ := eachStepOnlyAppends s
    obtain ⟨u, hrun, hempty, hcount⟩ := ih t (by simp [hin, hn])
    refine ⟨u, (core_run_succ_of_step hstep n).trans hrun, hempty, ?_⟩
    have hsplit := commandCount_take_one_add_tail s.inputs
    rw [hcount, hresp, hin, List.length_append, hrs]
    omega

end Sys2Proof.Machine
end
